-- ==== Sys2Proof/Word.lean ====
section
/-! DEFINITION. The one word of the machine: the 8-bit byte (spec/00_scope.md R6, spec/10_state.md R20).
Registers, memory cells, opcode and operand bytes are all of this width; every value is unsigned. -/

namespace Sys2Proof

/-- A byte: an unsigned number 0..255, bit 7 the most significant (R6). -/
abbrev Byte := BitVec 8

end Sys2Proof
end

