-- ==== Sys2Proof/Config.lean ====
section
/-! DEFINITION. The implementation parameters of spec/00_scope.md R5, and the names the opcode assignment
`OPC` is a map from. The default assignment itself stands in Decode.lean. The fixed
sizes of R5 are written as numerals where they are used: `MEM_SIZE` 256 cells, `CELL_BITS` and `XLEN` 8 bits,
`NREG` 8 registers, `SP_INDEX` 7, `PC_MAX` 256. -/

namespace Sys2Proof

/-- The thirteen mnemonics of R88, in the table's order: what the opcode assignment `OPC` maps to bytes. -/
inductive Mnemonic
  | hlt | ldi | prn | add | mul | push | pop | call | ret | cmp | jmp | jeq | jne
  deriving DecidableEq, Repr

/-- An opcode assignment: the parameter `OPC` of R5 and R89, a map from mnemonic to opcode byte. -/
abbrev Assignment := Mnemonic → Byte

/-- `SP_INIT` (R5): 244. -/
abbrev Config.spInit : Byte := 244#8

/-- `R_INIT[0..6]` (R5): 0 each. DESIGN CHOICE (the spec's own, decision D5; unsafe: log entry 2). -/
abbrev Config.regInit : Byte := 0#8

/-- `PC_INIT` (R5): 0. -/
abbrev Config.pcInit : Nat := 0

/-- `FL_INIT` (R5): 0, Equal clear. -/
abbrev Config.flInit : Bool := false

/-- `LOAD_BASE` (R5): the image is placed from address 0 upward. -/
abbrev Config.loadBase : Nat := 0

/-- `EXIT_OOB` (R5, decision D10): the process exit status on an OutOfBounds fault. The spec leaves it
OPEN, so it is a constant with no body (safe: log entry 13). -/
opaque Config.exitOob : Nat

end Sys2Proof
end

