-- ==== Sys2Proof/Syntax.lean ====
section
/-! DEFINITION. The instructions: one constructor for each row of spec/opcode_table.json (R88). Operands are
the raw operand bytes (R83): `a` is operand A, `b` operand B. A register operand is the whole byte, not masked
to three bits (R85). -/

namespace Sys2Proof

/-- The thirteen instructions of R88, in the table's order. -/
inductive Instr
  | hlt                    -- R130
  | ldi (a imm : Byte)     -- R140
  | prn (a : Byte)         -- R131
  | add (a b : Byte)       -- R154
  | mul (a b : Byte)       -- R155
  | push (a : Byte)        -- R171
  | pop (a : Byte)         -- R172
  | call (a : Byte)        -- R181
  | ret                    -- R182
  | cmp (a b : Byte)       -- R156
  | jmp (a : Byte)         -- R183
  | jeq (a : Byte)         -- R184
  | jne (a : Byte)         -- R185
  deriving DecidableEq, Repr

/-- The mnemonic of an instruction. -/
def Instr.mnemonic : Instr → Mnemonic
  | .hlt => .hlt
  | .ldi _ _ => .ldi
  | .prn _ => .prn
  | .add _ _ => .add
  | .mul _ _ => .mul
  | .push _ => .push
  | .pop _ => .pop
  | .call _ => .call
  | .ret => .ret
  | .cmp _ _ => .cmp
  | .jmp _ => .jmp
  | .jeq _ => .jeq
  | .jne _ => .jne

/-- The operand bytes of an instruction in memory order, operand A first (R80, R83). -/
def Instr.operands : Instr → List Byte
  | .hlt => []
  | .ldi a imm => [a, imm]
  | .prn a => [a]
  | .add a b => [a, b]
  | .mul a b => [a, b]
  | .push a => [a]
  | .pop a => [a]
  | .call a => [a]
  | .ret => []
  | .cmp a b => [a, b]
  | .jmp a => [a]
  | .jeq a => [a]
  | .jne a => [a]

/-- The operand bytes an instruction uses as register indices, in the order its pseudocode names them (R83).
The immediate of LDI is not among them. -/
def Instr.registerOperands : Instr → List Byte
  | .hlt => []
  | .ldi a _ => [a]
  | .prn a => [a]
  | .add a b => [a, b]
  | .mul a b => [a, b]
  | .push a => [a]
  | .pop a => [a]
  | .call a => [a]
  | .ret => []
  | .cmp a b => [a, b]
  | .jmp a => [a]
  | .jeq a => [a]
  | .jne a => [a]

end Sys2Proof
end

