-- ==== Sys2Proof/WellFormed.lean ====
section
/-! DEFINITION. Well-formed instructions: those "where the program encodes valid indices" (10_state R23,
90_conflicts C9). Every operand byte decodes (30_encoding R93); a register index of 8 or more is a fault when
the handler accesses it, so this predicate is no condition of decoding (log entry 19). -/

namespace Sys2Proof

/-- A register operand is valid when it names one of the eight registers (R23). -/
abbrev validRegister (r : Byte) : Bool := decide (r.toNat < 8)

/-- Operand A, where it is a register operand, is valid. -/
def operandAValid (i : Instr) : Bool :=
  match i.registerOperands with
  | [] => true
  | a :: _ => validRegister a

/-- Operand B, where it is a register operand (ADD, MUL, CMP), is valid. -/
def operandBValid (i : Instr) : Bool :=
  match i.registerOperands with
  | _ :: b :: _ => validRegister b
  | _ => true

/-- Both checks. -/
def wellFormed (i : Instr) : Bool := operandAValid i && operandBValid i

/-- An instruction whose register operands all name registers 0..7. -/
abbrev WellFormed (i : Instr) : Prop := wellFormed i = true

end Sys2Proof
end

