-- ==== Sys2Proof/Decode.lean ====
section
/-! DEFINITION. Decoding and encoding (spec/30_encoding.md). Both take the opcode assignment `OPC` as a
parameter (R89: "A model should take `OPC` as a configuration value with this default"). -/

namespace Sys2Proof

/-- The default opcode assignment of R89. PRESUMED: the published LS-8 values, which the spec marks as
general knowledge (decision D1; unsafe: log entry 1). -/
def defaultOpc : Assignment
  | .hlt  => 0x01#8
  | .ldi  => 0x82#8
  | .prn  => 0x47#8
  | .add  => 0xA0#8
  | .mul  => 0xA2#8
  | .push => 0x45#8
  | .pop  => 0x46#8
  | .call => 0x50#8
  | .ret  => 0x11#8
  | .cmp  => 0xA7#8
  | .jmp  => 0x54#8
  | .jeq  => 0x55#8
  | .jne  => 0x56#8

/-- The number of operand bytes of each instruction: formats OP0, OP1, OP2 of R80, lengths of R88. -/
def operandCount : Mnemonic → Nat
  | .hlt | .ret => 0
  | .prn | .push | .pop | .call | .jmp | .jeq | .jne => 1
  | .ldi | .add | .mul | .cmp => 2

/-- The dispatch table's thirteen entries (R114), in the order of R88. -/
def allMnemonics : List Mnemonic :=
  [.hlt, .ldi, .prn, .add, .mul, .push, .pop, .call, .ret, .cmp, .jmp, .jeq, .jne]

/-- What the document requires of an assignment (R89): the thirteen bytes are distinct, and bits 7:6 of each
are its operand count (R81). -/
structure Admissible (opc : Assignment) : Prop where
  distinct : ∀ m n : Mnemonic, opc m = opc n → m = n
  highBits : ∀ m : Mnemonic, (opc m).toNat / 64 = operandCount m

/-- Lookup in the dispatch table: the whole opcode byte is compared, all eight bits (R90). -/
def lookupOpcode (opc : Assignment) (ir : Byte) : Option Mnemonic :=
  allMnemonics.find? (fun m => opc m == ir)

/-- The instruction a mnemonic and the two operand bytes make; the operands an instruction does not have
are dead data (R83, R112). -/
def assemble (m : Mnemonic) (a b : Byte) : Instr :=
  match m with
  | .hlt  => .hlt
  | .ldi  => .ldi a b
  | .prn  => .prn a
  | .add  => .add a b
  | .mul  => .mul a b
  | .push => .push a
  | .pop  => .pop a
  | .call => .call a
  | .ret  => .ret
  | .cmp  => .cmp a b
  | .jmp  => .jmp a
  | .jeq  => .jeq a
  | .jne  => .jne a

/-- Why a sequence of bytes is no instruction. -/
inductive DecodeError
  /-- There is no opcode byte. -/
  | noBytes
  /-- The opcode byte is none of the thirteen (R91). -/
  | unknownOpcode (ir : Byte)
  /-- The opcode is known and operand bytes are missing. Only the static decoder answers this: the machine
  always has three bytes (R111). -/
  | missingOperand (m : Mnemonic)
  deriving DecidableEq, Repr

/-- The machine's decoder (R90, R111): the opcode byte and the two bytes that were read after it. -/
def decodeFetched (opc : Assignment) (ir a b : Byte) : Except DecodeError Instr :=
  match lookupOpcode opc ir with
  | some m => .ok (assemble m a b)
  | none => .error (.unknownOpcode ir)

/-- The static decoder of R94: the instruction at the front of a sequence of bytes, and the bytes after it. -/
def decodeBytes (opc : Assignment) (bytes : List Byte) : Except DecodeError (Instr × List Byte) :=
  match bytes with
  | [] => .error .noBytes
  | ir :: rest =>
    match lookupOpcode opc ir with
    | none => .error (.unknownOpcode ir)
    | some m =>
      match operandCount m, rest with
      | 0, rest => .ok (assemble m 0#8 0#8, rest)
      | 1, a :: rest => .ok (assemble m a 0#8, rest)
      | 2, a :: b :: rest => .ok (assemble m a b, rest)
      | _, _ => .error (.missingOperand m)

/-- The bytes of an instruction under an assignment: the opcode byte at the lowest address, then operand A,
then operand B (R80). -/
def encodeWith (opc : Assignment) (i : Instr) : List Byte := opc i.mnemonic :: i.operands

/-- The bytes of an instruction under the default assignment. -/
def encode (i : Instr) : List Byte := encodeWith defaultOpc i

/-- The fields of an opcode byte in the published layout `AABCDDDD` (R98), bit 7 first: the operand count `AA`,
the ALU bit `B`, the sets-PC bit `C`, the identifier `DDDD`. A description of the byte: no decoder calls it, since
no field of the opcode byte is decoded (R82, R90, R98). PRESUMED: the layout is general knowledge (log entry 20). -/
def opcodeFields (ir : Byte) : Nat × Bool × Bool × Nat :=
  (ir.toNat / 64, ir.getLsbD 5, ir.getLsbD 4, ir.toNat % 16)

/-- `B` of R98: set for an ALU instruction (ADD, MUL, CMP). -/
def aluBit : Mnemonic → Bool
  | .add | .mul | .cmp => true
  | .hlt | .ldi | .prn | .push | .pop | .call | .ret | .jmp | .jeq | .jne => false

/-- `C` of R98: set for an instruction that sets the PC (CALL, RET, JMP, JEQ, JNE). -/
def setsPcBit : Mnemonic → Bool
  | .call | .ret | .jmp | .jeq | .jne => true
  | .hlt | .ldi | .prn | .add | .mul | .push | .pop | .cmp => false

/-- The instruction's length in bytes (R82, R94): that of the matched opcode. -/
def Instr.length (i : Instr) : Nat := operandCount i.mnemonic + 1

/-- Byte `k` of an instruction word as spec/opcode_table.json numbers its bits: byte 0 is the opcode byte. -/
def wordByte (nbits w k : Nat) : Byte := BitVec.ofNat 8 (w % 2 ^ nbits / 256 ^ k)

/-- The instruction the decoder reads from a table word: its first three bytes, the bits above `nbits` zero. -/
def decodeTableWord (nbits w : Nat) : Option Instr :=
  (decodeFetched defaultOpc (wordByte nbits w 0) (wordByte nbits w 1) (wordByte nbits w 2)).toOption

end Sys2Proof
end

