-- ==== Sys2Proof/Machine/State.lean ====
section
/-! DEFINITION. The machine's state (spec/10_state.md R42), why a step can stop, and the state after reset. -/

namespace Sys2Proof.Machine

/-- The causes of a fault (R33, R201 to R203). -/
inductive FaultCause
  /-- An access outside memory or outside the register file (R201). -/
  | outOfBounds
  /-- An opcode byte with no dispatch-table entry (R202). -/
  | unknownOpcode
  /-- The ALU asked for an operation it does not have (R203): a name only, no step raises it (log entry 16). -/
  | unsupportedOperation
  deriving DecidableEq, Repr

/-- The run state (R33). -/
inductive RunState
  | running
  | halted
  | faulted (cause : FaultCause) (info : Nat)
  deriving DecidableEq, Repr

/-- Memory as a list of cells, addresses strictly rising, no cell equal to what an unlisted address reads as
(`Memory.wf` in Ops.lean; log entry 11). -/
abbrev Memory := List Host.Cell

/-- The complete state (R42). -/
structure State where
  /-- The eight general registers `x[0]` .. `x[7]`; `x[7]` is the stack pointer (R20, R24). -/
  x : Vector Byte 8
  /-- The program counter, a number 0..256 that never wraps (R26; log entry 3). -/
  pc : Nat
  /-- The Equal flag `E` (R30). -/
  e : Bool
  /-- The run state (R33). -/
  run : RunState
  /-- The 256 memory cells (R38). -/
  mem : Memory
  /-- The output log, oldest byte first (R36). -/
  out : List Byte
  deriving DecidableEq, Repr

/-- Why the machine stops. -/
inductive Fault
  /-- Raised by the fetch, the dispatch or a handler (R204): fault entry (R210). It holds what is observable
  of the faulted machine and nothing else (R211): the cause, `info` (the address, register index or opcode
  byte) and the output so far. Safe (log entry 4). -/
  | raised (cause : FaultCause) (info : Nat) (out : List Byte)
  /-- Answered by a step in Halted or Faulted, where the machine has no step (R110, R34). Safe (log entry 5). -/
  | noStep (run : RunState)
  deriving DecidableEq, Repr

/-- Why a step has no meaning in this model. -/
inductive Refusal
  /-- Answered by an arm of `exec` whose instruction has no meaning yet. Safe. No arm answers it. -/
  | notModelled (mnemonic : String)
  deriving DecidableEq, Repr

/-- The state when execution starts with nothing loaded: the table of R42 with the empty image (R241, R247).
The zeros of `x[0]` to `x[6]` are the spec's own decision D5 (DESIGN CHOICE, unsafe: log entry 2). -/
def State.reset : State where
  x := #v[Config.regInit, Config.regInit, Config.regInit, Config.regInit, Config.regInit, Config.regInit,
    Config.regInit, Config.spInit]
  pc := Config.pcInit
  e := Config.flInit
  run := .running
  mem := []
  out := []

end Sys2Proof.Machine
end

