-- ==== Sys2Proof/Machine/Ops.lean ====
section
/-! DEFINITION. The named operations the meanings are written over: raising a fault, memory, the register
file, the program counter, the output. -/

namespace Sys2Proof.Machine

/-! ## Faults -/

/-- `raise <Cause>(info)` (R9, R210): the step ends with this fault. What remains of the machine is the cause,
`info` and the output log (R211); the rest of the state is dropped, so no claim can be made about it. -/
def raise (cause : FaultCause) (info : Nat) (s : State) : Fault := .raised cause info s.out

/-- The run state of a machine that stopped with a fault: `run <- Faulted(cause, info)` (R210). -/
def Fault.run : Fault → RunState
  | .raised cause info _ => .faulted cause info
  | .noStep r => r

/-- The outcome of a handler whose accesses all succeeded, or of the first one that failed (R9, R116). -/
def finish (r : Except Fault State) : Host.Outcome State Fault Refusal :=
  match r with
  | .ok s => .next s
  | .error f => .fault f

/-! ## Memory (spec/20_memory.md) -/

/-- What an unlisted cell holds: the zero fill (R40, R247). -/
def Memory.unlisted : Byte := 0#8

/-- The cell at an address. -/
def Memory.read : Memory → Nat → Byte
  | [], _ => Memory.unlisted
  | (k, w) :: m, addr => if k = addr then w else Memory.read m addr

/-- Memory with one cell changed, in canonical form. -/
def Memory.write : Memory → Nat → Byte → Memory
  | [], addr, v => if v = Memory.unlisted then [] else [(addr, v)]
  | (k, w) :: m, addr, v =>
    if addr < k then (if v = Memory.unlisted then (k, w) :: m else (addr, v) :: (k, w) :: m)
    else if addr = k then (if v = Memory.unlisted then m else (addr, v) :: m)
    else (k, w) :: Memory.write m addr v

/-- Canonical form from address `lo` on: rising addresses, all below 256, no cell that reads as unlisted. -/
def Memory.wfFrom : Nat → Memory → Bool
  | _, [] => true
  | lo, (k, w) :: m => decide (lo ≤ k) && decide (k < 256) && decide (w ≠ Memory.unlisted) && Memory.wfFrom (k + 1) m

/-- The canonical form: equal memories are equal lists (log entry 11). -/
def Memory.wf (m : Memory) : Bool := Memory.wfFrom 0 m

/-- `MemRead(addr, 1)` (R52). -/
def memRead (addr : Nat) (s : State) : Except Fault Byte :=
  if addr < 256 then .ok (s.mem.read addr) else .error (raise .outOfBounds addr s)

/-- `MemWrite(addr, 1, v)` (R53). -/
def memWrite (addr : Nat) (v : Byte) (s : State) : Except Fault State :=
  if addr < 256 then .ok { s with mem := s.mem.write addr v } else .error (raise .outOfBounds addr s)

/-! ## Registers (spec/10_state.md R20 to R24) -/

/-- `x[i]`: the checked read of the register an operand byte names (R23). -/
def regRead (i : Byte) (s : State) : Except Fault Byte :=
  if h : i.toNat < 8 then .ok s.x[i.toNat] else .error (raise .outOfBounds i.toNat s)

/-- `x[i] <- v`: the checked write (R23). -/
def regWrite (i v : Byte) (s : State) : Except Fault State :=
  if h : i.toNat < 8 then .ok { s with x := s.x.set i.toNat v } else .error (raise .outOfBounds i.toNat s)

/-- `SP`, an abbreviation of `x[7]` (R24). -/
def State.sp (s : State) : Byte := s.x[7]

/-- `x[7] <- (x[7] - 1) mod 256` (R22, R171). -/
def spDecrement (s : State) : State := { s with x := s.x.set 7 (s.sp - 1#8) }

/-- `x[7] <- (x[7] + 1) mod 256` (R22, R172). -/
def spIncrement (s : State) : State := { s with x := s.x.set 7 (s.sp + 1#8) }

/-! ## Program counter, run state and output -/

/-- `pc <- pc0 + n`: the handler's own program-counter delta (R115). -/
def pcAdvance (n : Nat) (s : State) : State := { s with pc := s.pc + n }

/-- `pc <- t`: a transfer takes an 8-bit value into `pc` unchanged, and nothing is added (R180). -/
def pcSet (t : Byte) (s : State) : State := { s with pc := t.toNat }

/-- `run <- Halted` (R130). -/
def halt (s : State) : State := { s with run := .halted }

/-- `out <- out ++ [v]` (R36, R131): one output transfer. -/
def emit (v : Byte) (s : State) : State := { s with out := s.out ++ [v] }

end Sys2Proof.Machine
end

