-- ==== Sys2Proof/Machine/Flags.lean ====
section
/-! DEFINITION. The one flag, Equal (spec/10_state.md R30 to R32): its computation, its write, and the two
conditions that read it. -/

namespace Sys2Proof.Machine

/-- Equal after a compare of two values: 1 when they are equal, 0 otherwise (R31, R156). -/
def equalOf (va vb : Byte) : Bool := va == vb

/-- `E <- v`: CMP always writes it (R31). -/
def setEqual (v : Bool) (s : State) : State := { s with e := v }

/-- JEQ's condition: `E = 1` (R184). -/
def ifEqual (s : State) : Bool := s.e

/-- JNE's condition: `E = 0` (R185). -/
def ifNotEqual (s : State) : Bool := !s.e

end Sys2Proof.Machine
end

