-- ==== Sys2Proof/Machine/Operands.lean ====
section
/-! DEFINITION. The operand forms (spec/30_encoding.md R83 to R85, spec/44_stack.md R170). Register operands
are read and written through `regRead` and `regWrite` of Ops.lean. -/

namespace Sys2Proof.Machine

/-- The immediate of LDI: operand B as it stands, no extension, scaling or shift (R84). -/
def immediate (b : Byte) : Byte := b

/-- The effective address of a push: `(SP - 1) mod 256`, from the value of `SP` before the instruction (R170). -/
def pushAddr (s : State) : Nat := (s.sp - 1#8).toNat

/-- The effective address of a pop: `SP` itself (R170). -/
def popAddr (s : State) : Nat := s.sp.toNat

/-- The return address CALL pushes, `pc0 + 2`. A CALL runs only with `pc0 <= 253`, so it is a byte (R181);
for a larger `pc`, which no step reaches a handler with, the low byte (log entry 17). -/
def returnAddr (s : State) : Byte := BitVec.ofNat 8 (s.pc + 2)

/-- The two source operands of an ALU instruction, operand A first (R154, R155, R156). -/
def aluSources (a b : Byte) (s : State) : Except Fault (Byte × Byte) := do
  let va ← regRead a s
  let vb ← regRead b s
  return (va, vb)

end Sys2Proof.Machine
end

