-- ==== Sys2Proof/Machine/Alu.lean ====
section
/-! DEFINITION. The ALU and ADD, MUL, CMP (spec/43_alu.md). -/

namespace Sys2Proof.Machine

/-- The low byte of the exact sum (R151). -/
def addMod (va vb : Byte) : Byte := BitVec.ofNat 8 ((va.toNat + vb.toNat) % 256)

/-- The low byte of the exact 16-bit product (R151). -/
def mulMod (va vb : Byte) : Byte := BitVec.ofNat 8 (va.toNat * vb.toNat % 256)

/-- The closed set of ALU operations (R150, R153). -/
inductive AluOp
  | add | mul | cmp
  deriving DecidableEq, Repr

/-- `apply(operation, reg_a_index, reg_b_index)` (R150): both sources are read, A first; ADD and MUL write
register A, CMP writes Equal and no register. -/
def aluApply (op : AluOp) (a b : Byte) (s : State) : Except Fault State := do
  let (va, vb) ← aluSources a b s
  match op with
  | .add => regWrite a (addMod va vb) s
  | .mul => regWrite a (mulMod va vb) s
  | .cmp => return setEqual (equalOf va vb) s

/-- An ALU instruction: the operation, then `pc <- pc0 + 3`. -/
def execAlu (op : AluOp) (a b : Byte) (s : State) : Host.Outcome State Fault Refusal := finish do
  let s ← aluApply op a b s
  return pcAdvance 3 s

/-- ADD Ra, Rb (R154). -/
def execAdd (a b : Byte) (s : State) : Host.Outcome State Fault Refusal := execAlu .add a b s

/-- MUL Ra, Rb (R155). -/
def execMul (a b : Byte) (s : State) : Host.Outcome State Fault Refusal := execAlu .mul a b s

/-- CMP Ra, Rb (R156). -/
def execCmp (a b : Byte) (s : State) : Host.Outcome State Fault Refusal := execAlu .cmp a b s

end Sys2Proof.Machine
end

