-- ==== Sys2Proof/Machine/Control.lean ====
section
/-! DEFINITION. CALL, RET, JMP, JEQ, JNE (spec/45_control_transfer.md). -/

namespace Sys2Proof.Machine

/-- CALL Ra (R181): decrement, store the return address, then read the target. -/
def execCall (a : Byte) (s : State) : Host.Outcome State Fault Refusal := finish do
  let s1 := spDecrement s
  let s2 ← memWrite (pushAddr s) (returnAddr s) s1
  let t ← regRead a s2
  return pcSet t s2

/-- RET (R182). -/
def execRet (s : State) : Host.Outcome State Fault Refusal := finish do
  let t ← memRead (popAddr s) s
  return pcSet t (spIncrement s)

/-- JMP Ra (R183). -/
def execJmp (a : Byte) (s : State) : Host.Outcome State Fault Refusal := finish do
  let t ← regRead a s
  return pcSet t s

/-- A conditional jump (R184, R185): the target register is read, and its index checked, only when taken. -/
def branchIf (cond : Bool) (a : Byte) (s : State) : Except Fault State :=
  if cond then do
    let t ← regRead a s
    return pcSet t s
  else return pcAdvance 2 s

/-- JEQ Ra (R184). -/
def execJeq (a : Byte) (s : State) : Host.Outcome State Fault Refusal := finish (branchIf (ifEqual s) a s)

/-- JNE Ra (R185). -/
def execJne (a : Byte) (s : State) : Host.Outcome State Fault Refusal := finish (branchIf (ifNotEqual s) a s)

end Sys2Proof.Machine
end

