-- ==== Sys2Proof/Machine/DataMove.lean ====
section
/-! DEFINITION. LDI (spec/42_data_move.md). -/

namespace Sys2Proof.Machine

/-- LDI Ra, imm (R140). -/
def execLdi (a imm : Byte) (s : State) : Host.Outcome State Fault Refusal := finish do
  let s ← regWrite a (immediate imm) s
  return pcAdvance 3 s

end Sys2Proof.Machine
end

