-- ==== Sys2Proof/Machine/Stack.lean ====
section
/-! DEFINITION. PUSH and POP (spec/44_stack.md). The lines run in the order the rules give them, which is
visible where the operand is register 7 (R173, R174; log entry 6). -/

namespace Sys2Proof.Machine

/-- PUSH Ra (R171): decrement, read `x[a]` after the decrement, store at the new `SP`. -/
def execPush (a : Byte) (s : State) : Host.Outcome State Fault Refusal := finish do
  let s1 := spDecrement s
  let v ← regRead a s1
  let s2 ← memWrite (pushAddr s) v s1
  return pcAdvance 2 s2

/-- POP Ra (R172): read at the old `SP`, write `x[a]`, then increment register 7 as it then stands. -/
def execPop (a : Byte) (s : State) : Host.Outcome State Fault Refusal := finish do
  let v ← memRead (popAddr s) s
  let s1 ← regWrite a v s
  return pcAdvance 2 (spIncrement s1)

end Sys2Proof.Machine
end

