-- ==== Sys2Proof/Machine/System.lean ====
section
/-! DEFINITION. HLT and PRN (spec/41_system_and_io.md). -/

namespace Sys2Proof.Machine

/-- HLT (R130). -/
def execHlt (s : State) : Host.Outcome State Fault Refusal := finish (.ok (pcAdvance 1 (halt s)))

/-- PRN Ra (R131). -/
def execPrn (a : Byte) (s : State) : Host.Outcome State Fault Refusal := finish do
  let v ← regRead a s
  return pcAdvance 2 (emit v s)

end Sys2Proof.Machine
end

