-- ==== Sys2Proof/Machine/Fetch.lean ====
section
/-! DEFINITION. The part of the execution cycle before the handler runs (spec/40_execution_cycle.md R110 to
R114): the run-state check, the three fetch reads, the lookup of the opcode. -/

namespace Sys2Proof.Machine

/-- The three reads of a step, always all three, in this order (R111, R112): opcode, operand A, operand B. -/
def fetch (s : State) : Except Fault (Byte × Byte × Byte) := do
  let ir ← memRead s.pc s
  let a ← memRead (s.pc + 1) s
  let b ← memRead (s.pc + 2) s
  return (ir, a, b)

/-- Dispatch (R114): an opcode byte with no entry raises `UnknownOpcode(ir)`. -/
def dispatch (opc : Assignment) (ir a b : Byte) (s : State) : Except Fault Instr :=
  match decodeFetched opc ir a b with
  | .ok i => .ok i
  | .error _ => .error (raise .unknownOpcode ir.toNat s)

/-- The instruction a step runs. In Halted and in Faulted the machine has no step (R110, R34). -/
def nextInstr (opc : Assignment) (s : State) : Except Fault Instr :=
  match s.run with
  | .running => do
    let (ir, a, b) ← fetch s
    dispatch opc ir a b s
  | r => .error (.noStep r)

/-- Where an instruction placed for the very next step stands: at `pc` if an instruction can be fetched there,
else at the entry point 0 (R251, R29; log entry 12). -/
def placeAt (s : State) : Nat := if s.pc ≤ 253 then s.pc else Config.pcInit

/-- Three bytes placed where the next step fetches, and the machine running (log entry 12). -/
def placeBytes (ir a b : Byte) (s : State) : State :=
  { s with
    run := .running
    pc := placeAt s
    mem := ((s.mem.write (placeAt s) ir).write (placeAt s + 1) a).write (placeAt s + 2) b }

end Sys2Proof.Machine
end

