-- ==== Sys2Proof/Machine/Step.lean ====
section
/-! DEFINITION. One step of the machine (spec/40_execution_cycle.md R111), for any opcode assignment and for
the default one, and how an instruction is placed for the next step. -/

namespace Sys2Proof.Machine

/-- One step under an opcode assignment (R89, R111): fetch and dispatch, then the handler. -/
def stepWith (opc : Assignment) (s : State) : Host.Outcome State Fault Refusal :=
  match nextInstr opc s with
  | .ok i => exec i s
  | .error f => .fault f

/-- One step under the default assignment. -/
def step (s : State) : Host.Outcome State Fault Refusal := stepWith defaultOpc s

/-- The state with an instruction word of spec/opcode_table.json stored where `step` fetches next, so that the
very next step runs it: its three bytes, the bits above `nbits` zero (log entry 12). -/
def State.withFetchWord (s : State) (nbits w : Nat) : State :=
  placeBytes (wordByte nbits w 0) (wordByte nbits w 1) (wordByte nbits w 2) s

end Sys2Proof.Machine
end

