-- ==== Sys2Proof/Machine/Outside.lean ====
section
/-! DEFINITION. What passes between the core and the outside world: the image in, the end status and the
output out (spec/70_reset_and_hazards.md R240, R247, R248; spec/60_exceptions.md R212; R132). -/

namespace Sys2Proof.Machine

/-- The loader's writes: a sequence of bytes into consecutive cells, by `MemWrite` (R53, R247). -/
def loadBytes : List Byte → Nat → State → Except Fault State
  | [], _, s => .ok s
  | v :: vs, addr, s => do
    let s ← memWrite addr v s
    loadBytes vs (addr + 1) s

/-- Reset with an image (R240, R247): the machine constructed anew, then the image from `LOAD_BASE` upward.
An image of more than 256 bytes fails in the loader, before the core starts. -/
def bootImage (image : List Byte) : Except Fault State := loadBytes image Config.loadBase State.reset

/-- The run state the core shows after a step (decision D14; R34, R210): that of the next state, or that of the fault. -/
def runAfter (o : Host.Outcome State Fault Refusal) : Option RunState :=
  match o with
  | .next s => some s.run
  | .fault f => some f.run
  | .refused _ => none

/-- The process exit status (R212, decision D10): 0 after HLT, 1 after an unknown opcode, the open `EXIT_OOB`
after OutOfBounds; none while the machine runs. None is stated for UnsupportedOperation, which no step raises
(log entry 13). -/
def exitStatus (r : RunState) : Option Nat :=
  match r with
  | .running => none
  | .halted => some 0
  | .faulted .unknownOpcode _ => some 1
  | .faulted .outOfBounds _ => some Config.exitOob
  | .faulted .unsupportedOperation _ => none

/-- A decimal digit as a character. -/
def digit (n : Nat) : Char := Char.ofNat (48 + n % 10)

/-- The text of one output byte (R132, decision D11; log entry 14): shortest decimal, then a line feed. -/
def renderByte (v : Byte) : List Char :=
  let n := v.toNat
  (if n < 10 then [digit n]
   else if n < 100 then [digit (n / 10), digit n]
   else [digit (n / 100), digit (n / 10), digit n]) ++ [Char.ofNat 10]

/-- The text of the output log: one line per PRN, in execution order (R132). -/
def renderOutput (out : List Byte) : List Char := out.flatMap renderByte

end Sys2Proof.Machine
end

