-- ==== Sys2Proof/Safety.lean ====
section
/-! DEFINITION. The terms the claims use: the invariant, safe runs, sequences of instructions, and the spec's
own tables (R21, R27, R204), written here from the tables and not from the meanings, so that the two can be
compared. -/

namespace Sys2Proof.Machine

/-- What holds of every state a run reaches: memory in canonical form; `pc` in 0..256 (R26); the machine
Running, or Halted with `pc` just after a HLT (R130); never Faulted, since a fault is no next state (R211). -/
structure State.Inv (s : State) : Prop where
  memory : s.mem.wf = true
  pcRange : s.pc ≤ 256
  runState : s.run = .running ∨ (s.run = .halted ∧ 1 ≤ s.pc ∧ s.pc ≤ 254)

/-- For `n` steps the machine raises no fault: each step answers a next state, unless it has halted. -/
def SafeFor : Nat → State → Prop
  | 0, _ => True
  | n + 1, s => s.run = .halted ∨ ∃ t, step s = .next t ∧ SafeFor n t

/-- A safe run: it halts or goes on for ever, and never faults (R117). -/
def Safe (s : State) : Prop := ∀ n, SafeFor n s

/-- Handlers run one after another, stopping at the first that does not answer a next state. -/
def execAll : List Instr → State → Host.Outcome State Fault Refusal
  | [], s => .next s
  | i :: is, s =>
    match exec i s with
    | .next t => execAll is t
    | o => o

/-- The column "reads" of R21's table. -/
def registersRead (i : Instr) (s : State) : List Nat :=
  match i with
  | .hlt => []
  | .ldi _ _ => []
  | .prn a => [a.toNat]
  | .add a b => [a.toNat, b.toNat]
  | .mul a b => [a.toNat, b.toNat]
  | .cmp a b => [a.toNat, b.toNat]
  | .push a => [7, a.toNat]
  | .pop _ => [7]
  | .call a => [7, a.toNat]
  | .ret => [7]
  | .jmp a => [a.toNat]
  | .jeq a => if s.e = true then [a.toNat] else []
  | .jne a => if s.e = false then [a.toNat] else []

/-- The column "writes" of R21's table. -/
def registersWritten (i : Instr) : List Nat :=
  match i with
  | .hlt => []
  | .ldi a _ => [a.toNat]
  | .prn _ => []
  | .add a _ => [a.toNat]
  | .mul a _ => [a.toNat]
  | .cmp _ _ => []
  | .push _ => [7]
  | .pop a => [a.toNat, 7]
  | .call _ => [7]
  | .ret => [7]
  | .jmp _ => []
  | .jeq _ => []
  | .jne _ => []

/-- R27's table: the value of `pc` after a step from `s` to `t`. A target register is looked up in `t`, where it
holds what the handler read: no handler changes it after reading it, and CALL reads it after its decrement. -/
def pcTable (i : Instr) (s t : State) : Option Nat :=
  match i with
  | .hlt => some (s.pc + 1)
  | .ret => some (s.mem.read s.x[7].toNat).toNat
  | .prn _ => some (s.pc + 2)
  | .push _ => some (s.pc + 2)
  | .pop _ => some (s.pc + 2)
  | .call a => t.x[a.toNat]?.map BitVec.toNat
  | .jmp a => t.x[a.toNat]?.map BitVec.toNat
  | .jeq a => if s.e = true then t.x[a.toNat]?.map BitVec.toNat else some (s.pc + 2)
  | .jne a => if s.e = false then t.x[a.toNat]?.map BitVec.toNat else some (s.pc + 2)
  | .ldi _ _ => some (s.pc + 3)
  | .add _ _ => some (s.pc + 3)
  | .mul _ _ => some (s.pc + 3)
  | .cmp _ _ => some (s.pc + 3)

/-- R204's table, the rows of the handlers: the register index an instruction faults on, if it does. -/
def handlerFaultTable (m : Mnemonic) (a b : Nat) (e : Bool) : Option Nat :=
  match m with
  | .hlt | .ret => none
  | .ldi | .prn | .push | .pop | .call | .jmp => if 8 ≤ a then some a else none
  | .jeq => if e = true ∧ 8 ≤ a then some a else none
  | .jne => if e = false ∧ 8 ≤ a then some a else none
  | .add | .mul | .cmp => if 8 ≤ a then some a else if 8 ≤ b then some b else none

/-- R204's table, whole: the fault of a running machine's step, if it faults. -/
def faultTable (opc : Assignment) (s : State) : Option Fault :=
  if 254 ≤ s.pc then some (.raised .outOfBounds 256 s.out)
  else
    match lookupOpcode opc (s.mem.read s.pc) with
    | none => some (.raised .unknownOpcode (s.mem.read s.pc).toNat s.out)
    | some m =>
      (handlerFaultTable m (s.mem.read (s.pc + 1)).toNat (s.mem.read (s.pc + 2)).toNat s.e).map
        (fun i => .raised .outOfBounds i s.out)

/-- The cells a step that runs `i` depends on (R39, R112): the instruction's own bytes, the dead bytes read
after it left out, and for POP and RET the cell at `SP`. -/
def cellsUsed (i : Instr) (s : State) : List Nat :=
  (List.range i.length).map (fun k => s.pc + k) ++
  match i with
  | .pop _ => [s.x[7].toNat]
  | .ret => [s.x[7].toNat]
  | _ => []

/-- The cells a step that runs `i` stores to (R39): PUSH and CALL store at the decremented `SP`. -/
def cellsStored (i : Instr) (s : State) : List Nat :=
  match i with
  | .push _ => [pushAddr s]
  | .call _ => [pushAddr s]
  | _ => []

end Sys2Proof.Machine
end

