-- ==== Sys2Proof/Certificates/Slice0/Obligations.lean ====
section
/-! DEFINITION. The statements for the provers. Each docstring names the rule of spec/ it states; where a clause
rests on a choice the spec marks as its own (a decision D<n>) or on a derived passage, it says so and names the
log entry. -/

open Sys2Proof Sys2Proof.Machine

/-! ## Reset and the image -/

/-- R29: execution starts at address 0, where the first byte of the image stands, whatever the image, with SP
preloaded to 244 and the machine Running. -/
def Obligations.EveryBootStartsAtZero : Prop :=
  ∀ (image : List Byte) (t : State), bootImage image = .ok t →
    t.pc = 0 ∧ t.x[7] = 244#8 ∧ t.run = .running ∧ ∀ v, image.head? = some v → t.mem.read 0 = v

/-- R40: the cells below the image's length hold the image, all others 0. -/
def Obligations.BootPlacesImageThenZeros : Prop :=
  ∀ image : List Byte, image.length ≤ 256 →
    ∃ t, bootImage image = .ok t ∧ ∀ k, k < 256 → t.mem.read k = image[k]?.getD 0#8

/-- R247, its derived clauses: an image longer than 256 bytes fails in the loader at address 256, and with the
empty image the first step faults with UnknownOpcode(0) under every assignment that gives no instruction 0x00. -/
def Obligations.LoaderLimitsAndEmptyImage : Prop :=
  (∀ image : List Byte, 256 < image.length → bootImage image = .error (.raised .outOfBounds 256 [])) ∧
  (∀ (opc : Assignment) (t : State), (∀ m, opc m ≠ 0#8) → bootImage [] = .ok t →
    stepWith opc t = .fault (.raised .unknownOpcode 0 []))

/-- Decision D5 and R241 (the model's choice, log entry 2): registers 0 to 6 start at 0 and the output log is
empty, whatever the image; and Equal starts clear (R32). -/
def Obligations.BootClearsRegistersFlagAndOutput : Prop :=
  ∀ (image : List Byte) (t : State), bootImage image = .ok t →
    (∀ r, ∀ h : r < 8, r ≠ 7 → t.x[r] = 0#8) ∧ t.e = false ∧ t.out = []

/-! ## Memory and registers -/

/-- R52: a read answers the cell exactly when the address is in 0..255, else OutOfBounds(addr); after a write to
a cell the read gives the value written, and every other cell, and everything else of the state, is as before. -/
def Obligations.MemoryIsCheckedAndHoldsTheLastWrite : Prop :=
  ∀ (s : State) (addr : Nat) (v : Byte), s.mem.wf = true →
    (addr < 256 → ∃ t, memWrite addr v s = .ok t ∧ memRead addr t = .ok v ∧
      (∀ k, k ≠ addr → k < 256 → ∃ w, memRead k s = .ok w ∧ memRead k t = .ok w) ∧
      t.x = s.x ∧ t.pc = s.pc ∧ t.e = s.e ∧ t.run = s.run ∧ t.out = s.out) ∧
    (256 ≤ addr → memWrite addr v s = .error (.raised .outOfBounds addr s.out) ∧
      memRead addr s = .error (.raised .outOfBounds addr s.out))

/-- R38: each address names one cell and each cell has one address, so memories that read alike are the same
memory. It rests on the model's canonical form (log entry 11). -/
def Obligations.CanonicalMemoriesThatReadAlikeAreEqual : Prop :=
  ∀ m m' : Memory, m.wf = true → m'.wf = true → (∀ k, k < 256 → m.read k = m'.read k) → m = m'

/-- R23: the whole operand byte is the index; 0..7 name the eight registers, 8..255 raise OutOfBounds(i), on a
read and on a write. The moment of the check is decision D7 (log entry 6). -/
def Obligations.RegisterAccessIsChecked : Prop :=
  ∀ (i v : Byte) (s : State),
    (i.toNat < 8 → ∃ t, regWrite i v s = .ok t ∧ regRead i t = .ok v ∧
      (∀ j : Byte, j ≠ i → j.toNat < 8 → ∃ w, regRead j s = .ok w ∧ regRead j t = .ok w) ∧
      t.pc = s.pc ∧ t.e = s.e ∧ t.run = s.run ∧ t.mem = s.mem ∧ t.out = s.out) ∧
    (8 ≤ i.toNat → regRead i s = .error (.raised .outOfBounds i.toNat s.out) ∧
      regWrite i v s = .error (.raised .outOfBounds i.toNat s.out))

/-! ## The instructions: encoding, result, faults -/

/-- R130, HLT: it halts, `pc` advances by one, all else is unchanged, and no further step is taken. -/
def Obligations.HltHaltsAndAdvances : Prop :=
  ∀ (opc : Assignment) (s : State), encodeWith opc .hlt = [opc .hlt] ∧
    ∃ t, exec .hlt s = .next t ∧ t = { s with run := .halted, pc := s.pc + 1 } ∧
      stepWith opc t = .fault (.noStep .halted)

/-- R131, PRN Ra: the register's byte is appended to the output, `pc` advances by two, all else is unchanged; an
index of 8 or more faults before anything is output. -/
def Obligations.PrnOutputsTheRegister : Prop :=
  ∀ (opc : Assignment) (a : Byte) (s : State), encodeWith opc (.prn a) = [opc .prn, a] ∧
    (∀ h : a.toNat < 8, exec (.prn a) s = .next { s with out := s.out ++ [s.x[a.toNat]], pc := s.pc + 2 }) ∧
    (8 ≤ a.toNat → exec (.prn a) s = .fault (.raised .outOfBounds a.toNat s.out))

/-- R140, LDI Ra, imm: the register takes the immediate byte as it stands, `pc` advances by three, all else is
unchanged; only operand A is checked. -/
def Obligations.LdiLoadsTheImmediate : Prop :=
  ∀ (opc : Assignment) (a imm : Byte) (s : State), encodeWith opc (.ldi a imm) = [opc .ldi, a, imm] ∧
    (∀ h : a.toNat < 8, exec (.ldi a imm) s = .next { s with x := s.x.set a.toNat imm h, pc := s.pc + 3 }) ∧
    (8 ≤ a.toNat → exec (.ldi a imm) s = .fault (.raised .outOfBounds a.toNat s.out))

/-- R154, ADD Ra, Rb: register A becomes the sum modulo 256, every other register and `E` are unchanged, `pc`
advances by three; operand A is checked before operand B. The last clause is the document's property. -/
def Obligations.AddIsTheSumModulo256 : Prop :=
  (∀ (opc : Assignment) (a b : Byte) (s : State), encodeWith opc (.add a b) = [opc .add, a, b] ∧
    (∀ (ha : a.toNat < 8) (hb : b.toNat < 8), ∃ t, exec (.add a b) s = .next t ∧
      (t.x[a.toNat]).toNat = ((s.x[a.toNat]).toNat + (s.x[b.toNat]).toNat) % 256 ∧
      (∀ r, ∀ h : r < 8, r ≠ a.toNat → t.x[r] = s.x[r]) ∧
      t.pc = s.pc + 3 ∧ t.e = s.e ∧ t.run = s.run ∧ t.mem = s.mem ∧ t.out = s.out) ∧
    (8 ≤ a.toNat → exec (.add a b) s = .fault (.raised .outOfBounds a.toNat s.out)) ∧
    (a.toNat < 8 → 8 ≤ b.toNat → exec (.add a b) s = .fault (.raised .outOfBounds b.toNat s.out))) ∧
  (∀ (v1 v2 : Byte) (s : State), ∃ t, execAll [.ldi 0 v1, .ldi 1 v2, .add 0 1] s = .next t ∧
    (t.x[0]).toNat = (v1.toNat + v2.toNat) % 256)

/-- R155, MUL Ra, Rb: register A becomes the product modulo 256, every other register and `E` are unchanged, `pc`
advances by three; operand A is checked before operand B. The last clause is the document's property. -/
def Obligations.MulIsTheProductModulo256 : Prop :=
  (∀ (opc : Assignment) (a b : Byte) (s : State), encodeWith opc (.mul a b) = [opc .mul, a, b] ∧
    (∀ (ha : a.toNat < 8) (hb : b.toNat < 8), ∃ t, exec (.mul a b) s = .next t ∧
      (t.x[a.toNat]).toNat = ((s.x[a.toNat]).toNat * (s.x[b.toNat]).toNat) % 256 ∧
      (∀ r, ∀ h : r < 8, r ≠ a.toNat → t.x[r] = s.x[r]) ∧
      t.pc = s.pc + 3 ∧ t.e = s.e ∧ t.run = s.run ∧ t.mem = s.mem ∧ t.out = s.out) ∧
    (8 ≤ a.toNat → exec (.mul a b) s = .fault (.raised .outOfBounds a.toNat s.out)) ∧
    (a.toNat < 8 → 8 ≤ b.toNat → exec (.mul a b) s = .fault (.raised .outOfBounds b.toNat s.out))) ∧
  (∀ (v1 v2 : Byte) (s : State), ∃ t, execAll [.ldi 0 v1, .ldi 1 v2, .mul 0 1] s = .next t ∧
    (t.x[0]).toNat = (v1.toNat * v2.toNat) % 256)

/-- R156, CMP Ra, Rb: `E` is set exactly when the two registers hold equal values and cleared otherwise, no
register changes, `pc` advances by three; a fault comes before `E` is written. -/
def Obligations.CmpSetsEqualExactlyOnEquality : Prop :=
  ∀ (opc : Assignment) (a b : Byte) (s : State), encodeWith opc (.cmp a b) = [opc .cmp, a, b] ∧
    (∀ (ha : a.toNat < 8) (hb : b.toNat < 8), ∃ t, exec (.cmp a b) s = .next t ∧
      (t.e = true ↔ s.x[a.toNat] = s.x[b.toNat]) ∧
      t.x = s.x ∧ t.pc = s.pc + 3 ∧ t.run = s.run ∧ t.mem = s.mem ∧ t.out = s.out) ∧
    (8 ≤ a.toNat → exec (.cmp a b) s = .fault (.raised .outOfBounds a.toNat s.out)) ∧
    (a.toNat < 8 → 8 ≤ b.toNat → exec (.cmp a b) s = .fault (.raised .outOfBounds b.toNat s.out))

/-- R171, PUSH Ra: `SP` goes down by one modulo 256, and the cell it then addresses takes the value of register A
as it stands after the decrement; every other register and cell is unchanged, `pc` advances by two. -/
def Obligations.PushDecrementsThenStores : Prop :=
  ∀ (opc : Assignment) (a : Byte) (s : State), encodeWith opc (.push a) = [opc .push, a] ∧
    (∀ h : a.toNat < 8, s.mem.wf = true → ∃ t, exec (.push a) s = .next t ∧
      (t.x[7]).toNat = ((s.x[7]).toNat + 255) % 256 ∧
      (∀ r, ∀ hr : r < 8, r ≠ 7 → t.x[r] = s.x[r]) ∧
      t.mem.read (t.x[7]).toNat = t.x[a.toNat] ∧
      (∀ k, k ≠ (t.x[7]).toNat → t.mem.read k = s.mem.read k) ∧
      t.pc = s.pc + 2 ∧ t.e = s.e ∧ t.run = s.run ∧ t.out = s.out) ∧
    (8 ≤ a.toNat → exec (.push a) s = .fault (.raised .outOfBounds a.toNat s.out))

/-- R172, POP Ra: register A takes the cell at the old `SP`, then register 7, as it then stands, goes up by one
modulo 256; memory is unchanged, `pc` advances by two. -/
def Obligations.PopLoadsThenIncrements : Prop :=
  ∀ (opc : Assignment) (a : Byte) (s : State), encodeWith opc (.pop a) = [opc .pop, a] ∧
    (∀ h : a.toNat < 8, ∃ t, exec (.pop a) s = .next t ∧
      (a.toNat ≠ 7 → t.x[a.toNat] = s.mem.read (s.x[7]).toNat ∧ (t.x[7]).toNat = ((s.x[7]).toNat + 1) % 256) ∧
      (a.toNat = 7 → (t.x[7]).toNat = ((s.mem.read (s.x[7]).toNat).toNat + 1) % 256) ∧
      (∀ r, ∀ hr : r < 8, r ≠ 7 → r ≠ a.toNat → t.x[r] = s.x[r]) ∧
      t.mem = s.mem ∧ t.pc = s.pc + 2 ∧ t.e = s.e ∧ t.run = s.run ∧ t.out = s.out) ∧
    (8 ≤ a.toNat → exec (.pop a) s = .fault (.raised .outOfBounds a.toNat s.out))

/-- R181, CALL Ra, at a `pc` at which it can run: `SP` goes down by one, the cell it then addresses takes
`pc0 + 2`, and `pc` takes register A as it stands after the decrement. `CALL R7` follows decision D7 (log entry 6). -/
def Obligations.CallPushesTheReturnAddress : Prop :=
  ∀ (opc : Assignment) (a : Byte) (s : State), encodeWith opc (.call a) = [opc .call, a] ∧
    (∀ h : a.toNat < 8, s.mem.wf = true → s.pc ≤ 253 → ∃ t, exec (.call a) s = .next t ∧
      (t.x[7]).toNat = ((s.x[7]).toNat + 255) % 256 ∧
      (∀ r, ∀ hr : r < 8, r ≠ 7 → t.x[r] = s.x[r]) ∧
      (t.mem.read (t.x[7]).toNat).toNat = s.pc + 2 ∧
      (∀ k, k ≠ (t.x[7]).toNat → t.mem.read k = s.mem.read k) ∧
      t.pc = (t.x[a.toNat]).toNat ∧ t.e = s.e ∧ t.run = s.run ∧ t.out = s.out) ∧
    (8 ≤ a.toNat → exec (.call a) s = .fault (.raised .outOfBounds a.toNat s.out))

/-- R182, RET: `pc` takes the cell at the old `SP`, `SP` goes up by one modulo 256, all else is unchanged. -/
def Obligations.RetPopsIntoThePc : Prop :=
  ∀ (opc : Assignment) (s : State), encodeWith opc .ret = [opc .ret] ∧
    ∃ t, exec .ret s = .next t ∧
      t.pc = (s.mem.read (s.x[7]).toNat).toNat ∧ (t.x[7]).toNat = ((s.x[7]).toNat + 1) % 256 ∧
      (∀ r, ∀ hr : r < 8, r ≠ 7 → t.x[r] = s.x[r]) ∧
      t.mem = s.mem ∧ t.e = s.e ∧ t.run = s.run ∧ t.out = s.out

/-- R183, JMP Ra: `pc` takes the register's value and nothing else changes. -/
def Obligations.JmpTakesTheRegister : Prop :=
  ∀ (opc : Assignment) (a : Byte) (s : State), encodeWith opc (.jmp a) = [opc .jmp, a] ∧
    (∀ h : a.toNat < 8, exec (.jmp a) s = .next { s with pc := (s.x[a.toNat]).toNat }) ∧
    (8 ≤ a.toNat → exec (.jmp a) s = .fault (.raised .outOfBounds a.toNat s.out))

/-- R184, JEQ Ra: taken when `E` is set, else `pc` advances by two; an operand of 8 or more faults only when the
jump is taken, which is decision D7 (log entry 6). -/
def Obligations.JeqJumpsWhenEqualIsSet : Prop :=
  ∀ (opc : Assignment) (a : Byte) (s : State), encodeWith opc (.jeq a) = [opc .jeq, a] ∧
    (∀ h : a.toNat < 8, s.e = true → exec (.jeq a) s = .next { s with pc := (s.x[a.toNat]).toNat }) ∧
    (s.e = false → exec (.jeq a) s = .next { s with pc := s.pc + 2 }) ∧
    (8 ≤ a.toNat → s.e = true → exec (.jeq a) s = .fault (.raised .outOfBounds a.toNat s.out))

/-- R185, JNE Ra: taken when `E` is clear, else `pc` advances by two; an operand of 8 or more faults only when
the jump is taken, which is decision D7 (log entry 6). -/
def Obligations.JneJumpsWhenEqualIsClear : Prop :=
  ∀ (opc : Assignment) (a : Byte) (s : State), encodeWith opc (.jne a) = [opc .jne, a] ∧
    (∀ h : a.toNat < 8, s.e = false → exec (.jne a) s = .next { s with pc := (s.x[a.toNat]).toNat }) ∧
    (s.e = true → exec (.jne a) s = .next { s with pc := s.pc + 2 }) ∧
    (8 ≤ a.toNat → s.e = false → exec (.jne a) s = .fault (.raised .outOfBounds a.toNat s.out))

/-- R173, R174, R181: register 7 as the operand. PUSH R7 stores the decremented pointer, POP R7 leaves the popped
byte plus one, CALL R7 jumps to the decremented pointer. The order is decision D7, the wrap decision D6 (log
entries 6 and 7). -/
def Obligations.RegisterSevenFollowsTheEffectOrder : Prop :=
  ∀ s : State, s.mem.wf = true →
    (∃ t, exec (.push 7) s = .next t ∧ t.x = s.x.set 7 (s.x[7] - 1#8) ∧
      t.mem.read (s.x[7] - 1#8).toNat = s.x[7] - 1#8 ∧ t.mem.read (s.x[7]).toNat = s.mem.read (s.x[7]).toNat) ∧
    (∃ t, exec (.pop 7) s = .next t ∧ t.x = s.x.set 7 (s.mem.read (s.x[7]).toNat + 1#8)) ∧
    (∃ t, exec (.call 7) s = .next t ∧ t.x = s.x.set 7 (s.x[7] - 1#8) ∧ t.pc = (s.x[7] - 1#8).toNat)

/-- R152, a derived rule: ADD and MUL give the same bits for the two's-complement reading, and a subtraction of
`k` is an addition of `(256 - k) mod 256`. -/
def Obligations.ArithmeticAgreesWithTheSignedReading : Prop :=
  (∀ (a b : Byte) (s : State) (ha : a.toNat < 8) (hb : b.toNat < 8),
    (∃ t, exec (.add a b) s = .next t ∧
      (t.x[a.toNat]).toInt = ((s.x[a.toNat]).toInt + (s.x[b.toNat]).toInt).bmod 256) ∧
    (∃ t, exec (.mul a b) s = .next t ∧
      (t.x[a.toNat]).toInt = ((s.x[a.toNat]).toInt * (s.x[b.toNat]).toInt).bmod 256)) ∧
  (∀ (a b : Byte) (s : State) (k : Nat) (ha : a.toNat < 8) (hb : b.toNat < 8), k ≤ (s.x[a.toNat]).toNat →
    (s.x[b.toNat]).toNat = (256 - k) % 256 →
    ∃ t, exec (.add a b) s = .next t ∧ (t.x[a.toNat]).toNat = (s.x[a.toNat]).toNat - k)

/-! ## Frames -/

/-- Frame of the forms whose only destination is register A: LDI, ADD, MUL. -/
def Obligations.FrameOfRegisterDestinations : Prop :=
  ∀ (i : Instr) (a : Byte) (s t : State),
    ((∃ imm, i = .ldi a imm) ∨ (∃ b, i = .add a b) ∨ (∃ b, i = .mul a b)) → exec i s = .next t →
    (∀ r, ∀ h : r < 8, r ≠ a.toNat → t.x[r] = s.x[r]) ∧ t.e = s.e ∧ t.run = s.run ∧ t.out = s.out ∧
    ∀ k, t.mem.read k = s.mem.read k

/-- Frame of the forms that write no register and no cell: HLT, PRN, CMP, JMP, JEQ, JNE. Only HLT writes the run
state, only PRN the output, only CMP the flag. -/
def Obligations.FrameOfFormsWithoutDestination : Prop :=
  ∀ (i : Instr) (s t : State),
    (i = .hlt ∨ (∃ a, i = .prn a) ∨ (∃ a b, i = .cmp a b) ∨ (∃ a, i = .jmp a) ∨ (∃ a, i = .jeq a) ∨ (∃ a, i = .jne a)) →
    exec i s = .next t →
    t.x = s.x ∧ (∀ k, t.mem.read k = s.mem.read k) ∧
    ((∀ a b, i ≠ .cmp a b) → t.e = s.e) ∧ (i ≠ .hlt → t.run = s.run) ∧ ((∀ a, i ≠ .prn a) → t.out = s.out)

/-- Frame of the storing forms, PUSH and CALL: the one byte stored stands at `pushAddr`, the address the meanings
compute (R170); every other byte, every register but 7, the flag, the run state and the output are unchanged. -/
def Obligations.FrameOfStackStores : Prop :=
  ∀ (i : Instr) (a : Byte) (s t : State), (i = .push a ∨ i = .call a) → exec i s = .next t →
    (∀ addr, addr = pushAddr s → ∀ k, k ≠ addr → t.mem.read k = s.mem.read k) ∧
    (∀ r, ∀ h : r < 8, r ≠ 7 → t.x[r] = s.x[r]) ∧ t.e = s.e ∧ t.run = s.run ∧ t.out = s.out

/-- Frame of the loading forms, POP and RET: every byte reads as before; POP writes register A and register 7,
RET register 7; the flag, the run state and the output are unchanged. -/
def Obligations.FrameOfStackLoads : Prop :=
  ∀ (i : Instr) (s t : State), ((∃ a, i = .pop a) ∨ i = .ret) → exec i s = .next t →
    (∀ k, t.mem.read k = s.mem.read k) ∧
    (∀ r, ∀ h : r < 8, r ≠ 7 → i ≠ .pop (BitVec.ofNat 8 r) → t.x[r] = s.x[r]) ∧
    t.e = s.e ∧ t.run = s.run ∧ t.out = s.out

/-! ## Rules over all instructions -/

/-- R27: the table of `pc` after each instruction; the execution cycle itself adds nothing. That CALL reads its
register after the decrement (CALL R7, a derived passage of R181) and that an untaken JEQ or JNE does not check its
operand is decision D7, the model's choice (log entry 6). -/
def Obligations.ProgramCounterFollowsTheTable : Prop :=
  (∀ (i : Instr) (s t : State), exec i s = .next t → pcTable i s t = some t.pc) ∧
  (∀ (opc : Assignment) (s t : State), stepWith opc s = .next t →
    ∃ m, lookupOpcode opc (s.mem.read s.pc) = some m ∧
      pcTable (assemble m (s.mem.read (s.pc + 1)) (s.mem.read (s.pc + 2))) s t = some t.pc)

/-- R31: `E` is written by CMP and by nothing else, CMP always writes it, and nothing but JEQ and JNE reads it. -/
def Obligations.EqualIsWrittenOnlyByCmpReadOnlyByJeqJne : Prop :=
  (∀ (a b : Byte) (s t : State), exec (.cmp a b) s = .next t →
    (t.e = true ↔ s.x[a.toNat]? = s.x[b.toNat]?)) ∧
  (∀ (i : Instr) (s t : State), (∀ a b, i ≠ .cmp a b) → exec i s = .next t → t.e = s.e) ∧
  (∀ (i : Instr) (s : State) (v : Bool), (∀ a, i ≠ .jeq a) → (∀ a, i ≠ .jne a) →
    (∀ t, exec i s = .next t → ∃ t', exec i { s with e := v } = .next t' ∧ t'.x = t.x ∧ t'.pc = t.pc ∧
      t'.run = t.run ∧ t'.mem = t.mem ∧ t'.out = t.out ∧ ((∃ a b, i = .cmp a b) → t'.e = t.e)) ∧
    (∀ f, exec i s = .fault f → exec i { s with e := v } = .fault f))

/-- R36: only PRN appends to the output, exactly one byte; nothing inside the machine reads it, so neither a next
state nor a fault depends on it; a fault leaves what was delivered (R211, log entry 4). That it is empty after reset
is what R241 calls the spec's own choice (log entry 2). -/
def Obligations.OutputIsAppendedOnlyByPrn : Prop :=
  (∀ (a : Byte) (s t : State), exec (.prn a) s = .next t → ∃ v, s.x[a.toNat]? = some v ∧ t.out = s.out ++ [v]) ∧
  (∀ (i : Instr) (s t : State), (∀ a, i ≠ .prn a) → exec i s = .next t → t.out = s.out) ∧
  (∀ (i : Instr) (s t : State) (o : List Byte), exec i s = .next t →
    ∃ d, t.out = s.out ++ d ∧ exec i { s with out := o } = .next { t with out := o ++ d }) ∧
  (∀ (i : Instr) (s : State) (c : FaultCause) (n : Nat) (o o' : List Byte), exec i s = .fault (.raised c n o) →
    o = s.out ∧ exec i { s with out := o' } = .fault (.raised c n o')) ∧
  State.reset.out = []

/-- R21: no register outside the table's column "writes" changes, and the outcome does not depend on a register
outside the column "reads". CALL and PUSH read register A after the decrement, so register 7 is in both; this order
and the unread register of an untaken JEQ or JNE are decision D7 (log entry 6). Register 7 as an ordinary register is
decision D18 (log entry 9). -/
def Obligations.RegistersAreReadAndWrittenAsTabled : Prop :=
  (∀ (i : Instr) (s t : State), exec i s = .next t →
    ∀ r, ∀ h : r < 8, r ∉ registersWritten i → t.x[r] = s.x[r]) ∧
  (∀ (i : Instr) (s : State) (r : Nat) (h : r < 8) (v : Byte), r ∉ registersRead i s →
    (∀ t, exec i s = .next t → ∃ t', exec i { s with x := s.x.set r v } = .next t' ∧
      (∀ q, ∀ hq : q < 8, q ≠ r → t'.x[q] = t.x[q]) ∧
      t'.x[r] = (if r ∈ registersWritten i then t.x[r] else v) ∧
      t'.pc = t.pc ∧ t'.e = t.e ∧ t'.run = t.run ∧ t'.mem = t.mem ∧ t'.out = t.out) ∧
    (∀ f, exec i s = .fault f → exec i { s with x := s.x.set r v } = .fault f))

/-- R34: a step is taken only when Running and leads to Running or, exactly when HLT executes, to Halted; a fault
leads to Faulted with its cause and info (read from the outcome, log entry 4); Halted and Faulted take no step (the
answer `noStep`, log entry 5); reset gives Running. -/
def Obligations.RunStateTransitions : Prop :=
  (∀ (opc : Assignment) (s t : State), stepWith opc s = .next t →
    s.run = .running ∧ (t.run = .running ∨ t.run = .halted) ∧
    (t.run = .halted ↔ lookupOpcode opc (s.mem.read s.pc) = some .hlt)) ∧
  (∀ (opc : Assignment) (s : State) (c : FaultCause) (n : Nat) (o : List Byte),
    stepWith opc s = .fault (.raised c n o) →
      s.run = .running ∧ runAfter (stepWith opc s) = some (.faulted c n)) ∧
  (∀ (opc : Assignment) (s : State), s.run ≠ .running →
    stepWith opc s = .fault (.noStep s.run) ∧ runAfter (stepWith opc s) = some s.run) ∧
  (∀ (image : List Byte) (t : State), bootImage image = .ok t → t.run = .running)

/-- Every instruction whose register operands name registers 0..7 completes, from every state; and an instruction
faults only on a register operand of 8 or more (R23, 90_conflicts C9; log entry 19). -/
def Obligations.WellFormedInstructionsComplete : Prop :=
  ∀ (i : Instr) (s : State),
    (WellFormed i → ∃ t, exec i s = .next t) ∧
    (∀ f, exec i s = .fault f → ∃ r ∈ i.registerOperands, 8 ≤ r.toNat ∧ f = .raised .outOfBounds r.toNat s.out)

/-! ## The execution cycle -/

/-- R111: when the three bytes at `pc` decode to an instruction, a step is that instruction's handler, with
nothing before or after it; a step of the machine is one under the default assignment (log entry 1). -/
def Obligations.StepRunsTheDecodedInstruction : Prop :=
  (∀ (opc : Assignment) (s : State) (i : Instr), s.run = .running → s.pc ≤ 253 →
    decodeFetched opc (s.mem.read s.pc) (s.mem.read (s.pc + 1)) (s.mem.read (s.pc + 2)) = .ok i →
    stepWith opc s = exec i s) ∧
  ∀ s : State, step s = stepWith defaultOpc s

/-- R113, a derived rule: a step that starts at 254, 255 or 256 faults with OutOfBounds(256), whatever the bytes
there are, HLT and RET and unknown opcodes included. The range of `pc` is decision D3 (log entry 3). -/
def Obligations.FetchFaultsAtTheTopOfMemory : Prop :=
  ∀ (opc : Assignment) (s : State), s.run = .running → 254 ≤ s.pc → s.pc ≤ 256 →
    stepWith opc s = .fault (.raised .outOfBounds 256 s.out)

/-- R91: exactly 243 byte values are unknown opcodes, and executing one raises UnknownOpcode(ir), which ends the
run with a non-zero exit status. -/
def Obligations.UnknownOpcodesAreFatal : Prop :=
  ∀ opc : Assignment, Admissible opc →
    ((List.range 256).filter (fun n => lookupOpcode opc (BitVec.ofNat 8 n) = none)).length = 243 ∧
    ∀ s : State, s.run = .running → s.pc ≤ 253 → (∀ m, s.mem.read s.pc ≠ opc m) →
      stepWith opc s = .fault (.raised .unknownOpcode (s.mem.read s.pc).toNat s.out) ∧
      ∃ n, (runAfter (stepWith opc s)).bind exitStatus = some n ∧ n ≠ 0

/-- R204: the complete table of what can raise what. A running machine's step faults exactly as the table says,
and otherwise answers a next state. The model's choices in it: the unchecked operand of an untaken JEQ or JNE is
decision D7 (log entry 6), the order of the faults (R116, R208) decision D9 (log entry 10), the row of `pc` 254 and
above R113's derivation with decision D3 (log entry 3), and the output as all that remains R211 (log entry 4). -/
def Obligations.StepFaultsExactlyAsTabled : Prop :=
  ∀ (opc : Assignment) (s : State), s.run = .running → s.pc ≤ 256 →
    (∀ f, stepWith opc s = .fault f ↔ faultTable opc s = some f) ∧
    (faultTable opc s = none → ∃ t, stepWith opc s = .next t)

/-- R203 and R211: no step, from any state, raises UnsupportedOperation (decision D17, log entry 16), and every
fault carries exactly the output delivered so far (decision D8, log entry 4). -/
def Obligations.FaultsCarryTheOutputAndNeverUnsupported : Prop :=
  ∀ (opc : Assignment) (s : State) (c : FaultCause) (n : Nat) (o : List Byte),
    stepWith opc s = .fault (.raised c n o) → o = s.out ∧ (c = .outOfBounds ∨ c = .unknownOpcode)

/-- R39 and R112: a step does not depend on a cell outside the instruction's own bytes and, for POP and RET, the
cell at `SP`; the dead bytes read after a short instruction are such cells. A cell that is not stored to keeps
its value. -/
def Obligations.StepDependsOnlyOnItsCells : Prop :=
  ∀ (opc : Assignment) (s : State) (i : Instr) (addr : Nat) (v : Byte), s.mem.wf = true → addr < 256 →
    nextInstr opc s = .ok i → addr ∉ cellsUsed i s →
    (∀ t, stepWith opc s = .next t → ∃ t', stepWith opc { s with mem := s.mem.write addr v } = .next t' ∧
      t'.x = t.x ∧ t'.pc = t.pc ∧ t'.e = t.e ∧ t'.run = t.run ∧ t'.out = t.out ∧
      (∀ k, k ≠ addr → t'.mem.read k = t.mem.read k) ∧
      t'.mem.read addr = (if addr ∈ cellsStored i s then t.mem.read addr else v)) ∧
    (∀ f, stepWith opc s = .fault f → stepWith opc { s with mem := s.mem.write addr v } = .fault f)

/-- R63, a derived rule: a byte PUSH or CALL stores where the next step fetches is the opcode byte of that very
next step. -/
def Obligations.StoredByteIsTheNextOpcode : Prop :=
  ∀ (opc : Assignment) (m : Mnemonic) (a : Byte) (s t : State), Admissible opc → s.mem.wf = true →
    s.run = .running → s.pc ≤ 253 → t.pc = pushAddr s → t.pc ≤ 253 →
    ((exec (.push a) s = .next t ∧ t.x[a.toNat]? = some (opc m)) ∨
      (exec (.call a) s = .next t ∧ (opc m).toNat = s.pc + 2)) →
    stepWith opc t = exec (assemble m (t.mem.read (t.pc + 1)) (t.mem.read (t.pc + 2))) t

/-- R117 and R183: a JMP to itself is a run that never ends: after any number of steps the machine stands where
it stood, and the run is safe. -/
def Obligations.JumpToItselfNeverEnds : Prop :=
  ∀ (s : State) (a : Byte) (h : a.toNat < 8), s.run = .running → s.pc ≤ 253 →
    s.mem.read s.pc = defaultOpc .jmp → s.mem.read (s.pc + 1) = a → (s.x[a.toNat]).toNat = s.pc →
    (∀ n, Host.Core.run core n s = .next s) ∧ Safe s

/-! ## Sequences -/

/-- R175, in the document's words for one register and in general: registers pushed one after another and popped
in reverse order come back, with `SP`, for every register, 7 included, and every starting `SP`, up to the 256
cells there are. The cells not pushed to keep their values. R175 is a derived rule; wrap is decision D6 (log
entry 7). -/
def Obligations.PushedRegistersComeBackInReverseOrder : Prop :=
  ∀ (rs : List Byte) (s : State), s.mem.wf = true → rs.length ≤ 256 → (∀ r ∈ rs, r.toNat < 8) →
    ∃ t, execAll (rs.map .push ++ rs.reverse.map .pop) s = .next t ∧
      t.x = s.x ∧ t.e = s.e ∧ t.run = s.run ∧ t.out = s.out ∧ t.pc = s.pc + 4 * rs.length ∧
      (∀ k, (∀ j, j < rs.length → k ≠ ((s.x[7]).toNat + 255 - j) % 256) → t.mem.read k = s.mem.read k) ∧
      (∀ r : Byte, ∀ hr : r.toNat < 8, rs = [r] → r.toNat ≠ 7 →
        t.mem.read (((s.x[7]).toNat + 255) % 256) = s.x[r.toNat])

/-- R186: a CALL, then a callee that leaves the stack pointer and the return cell as it found them, then RET:
execution resumes at the byte after the CALL and `SP` is what it was. R186's condition is a derived passage. -/
def Obligations.RetResumesAfterTheCall : Prop :=
  ∀ (a : Byte) (s t u : State), s.mem.wf = true → s.pc ≤ 253 → exec (.call a) s = .next t →
    u.x[7] = t.x[7] → u.mem.read (t.x[7]).toNat = t.mem.read (t.x[7]).toNat →
    ∃ w, exec .ret u = .next w ∧ w.pc = s.pc + 2 ∧ w.x[7] = s.x[7]

/-! ## Encoding -/

/-- R80, R90: for every admissible assignment, decoding the bytes of any instruction gives it back with the bytes
after it, by the static decoder and by the machine's decoder on three fetched bytes. -/
def Obligations.DecodeOfEncodeIsTheInstruction : Prop :=
  ∀ (opc : Assignment) (i : Instr) (rest : List Byte), Admissible opc →
    decodeBytes opc (encodeWith opc i ++ rest) = .ok (i, rest) ∧
    ∀ ir a b : Byte, (∃ tail, [ir, a, b] = encodeWith opc i ++ tail) → decodeFetched opc ir a b = .ok i

/-- R94: what the static decoder reads is exactly the bytes of the instruction it names. -/
def Obligations.EncodeOfDecodeIsTheBytes : Prop :=
  ∀ (opc : Assignment) (bytes rest : List Byte) (i : Instr), decodeBytes opc bytes = .ok (i, rest) →
    bytes = encodeWith opc i ++ rest

/-- R90: the whole opcode byte is compared with the thirteen values; a match selects that instruction and no
other byte matches. -/
def Obligations.TheWholeOpcodeByteIsMatched : Prop :=
  ∀ (opc : Assignment) (ir a b : Byte), Admissible opc →
    (∀ m, ir = opc m → decodeFetched opc ir a b = .ok (assemble m a b)) ∧
    ((∀ m, ir ≠ opc m) → decodeFetched opc ir a b = .error (.unknownOpcode ir))

/-- R81: the two high bits of the opcode byte are the number of operand bytes, the length is one more, and no
opcode has both bits set. -/
def Obligations.HighOpcodeBitsCountTheOperands : Prop :=
  ∀ (opc : Assignment) (i : Instr) (ir : Byte) (rest : List Byte), Admissible opc → encodeWith opc i = ir :: rest →
    rest.length = ir.toNat / 64 ∧ i.length = ir.toNat / 64 + 1 ∧ ir.toNat / 64 ≠ 3

/-- R89: the default assignment meets the two requirements. Its values are PRESUMED (decision D1, log entry 1). -/
def Obligations.DefaultAssignmentIsAdmissible : Prop := Admissible defaultOpc

/-- R98, for information in the spec and PRESUMED (G2, decision D1, log entries 1 and 20): the default opcode bytes
follow the layout `AABCDDDD`, `AA` the operand count, `B` set exactly in ADD, MUL, CMP, `C` set exactly in CALL, RET,
JMP, JEQ, JNE, and the four fields are the whole byte. -/
def Obligations.DefaultOpcodesFollowThePublishedLayout : Prop :=
  ∀ m : Mnemonic, ∃ d, opcodeFields (defaultOpc m) = (operandCount m, aluBit m, setsPcBit m, d) ∧ d < 16 ∧
    (defaultOpc m).toNat = operandCount m * 64 + (aluBit m).toNat * 32 + (setsPcBit m).toNat * 16 + d

/-- R82 and R98: the hardware decodes no field of the opcode byte. Whatever instruction runs next, replacing its
opcode byte by the byte that any other assignment of thirteen distinct bytes gives the same mnemonic, and decoding
with that assignment, the same instruction runs, with the same operands, whatever the bits of the new byte: neither
the operand count in the high bits nor `B`, `C`, `DDDD` is looked at. The other assignment need not meet R81. -/
def Obligations.NoFieldOfTheOpcodeByteIsDecoded : Prop :=
  ∀ (opc opc' : Assignment) (s : State) (i : Instr), (∀ m n, opc' m = opc' n → m = n) → s.mem.wf = true →
    nextInstr opc s = .ok i →
    nextInstr opc' { s with mem := s.mem.write s.pc (opc' i.mnemonic) } = .ok i ∧
    stepWith opc' { s with mem := s.mem.write s.pc (opc' i.mnemonic) } =
      exec i { s with mem := s.mem.write s.pc (opc' i.mnemonic) }

/-- V-DEC of 95_test_vectors: words written out from R80 and R89 decode to what they stand for (decision D1, log
entry 1). -/
def Obligations.SampleWordsDecode : Prop :=
  decodeFetched defaultOpc 0x01 0xFF 0xFF = .ok .hlt ∧
  decodeFetched defaultOpc 0x82 0x03 0xFF = .ok (.ldi 3 255) ∧
  decodeFetched defaultOpc 0xA0 0x00 0x01 = .ok (.add 0 1) ∧
  decodeFetched defaultOpc 0x45 0x05 0x00 = .ok (.push 5) ∧
  decodeFetched defaultOpc 0x50 0x01 0x00 = .ok (.call 1) ∧
  decodeFetched defaultOpc 0x00 0x00 0x00 = .error (.unknownOpcode 0)

/-- A word of the opcode table placed for the next step is what the next step runs (the model's own loading
operation, log entry 12). -/
def Obligations.PlacedWordRunsNext : Prop :=
  ∀ (s : State) (nbits w : Nat) (i : Instr), s.mem.wf = true → decodeTableWord nbits w = some i →
    step (s.withFetchWord nbits w) = exec i (s.withFetchWord nbits w) ∧
    (s.withFetchWord nbits w).x = s.x ∧ (s.withFetchWord nbits w).e = s.e ∧ (s.withFetchWord nbits w).out = s.out ∧
    (s.run = .running → s.pc ≤ 253 → (s.withFetchWord nbits w).pc = s.pc)

/-! ## The invariant -/

/-- Every step, under the default assignment and under any other, keeps the invariant: canonical memory, `pc` in 0..256 (decision D3, log entry 3), Running or Halted
after a HLT, never Faulted (R26, R34, R211). -/
def Obligations.StepKeepsTheInvariant : Prop :=
  (∀ s t : State, s.Inv → step s = .next t → t.Inv) ∧
  (∀ (opc : Assignment) (s t : State), s.Inv → stepWith opc s = .next t → t.Inv)

/-- The state after reset meets the invariant. -/
def Obligations.ResetMeetsTheInvariant : Prop := State.reset.Inv

/-- Every boot meets the invariant, whatever the image (R247). -/
def Obligations.BootMeetsTheInvariant : Prop :=
  ∀ (image : List Byte) (t : State), bootImage image = .ok t → t.Inv
end

