-- ==== Sys2Proof/Laws/Memory.lean ====
section
/-! SUPPORT. The laws of memory as a canonical list: a write keeps the form, changes the addressed cell and no
other. -/

namespace Sys2Proof.Machine

@[simp] theorem Memory.read_nil (addr : Nat) : Memory.read [] addr = Memory.unlisted := rfl

theorem Memory.wfFrom_cons (lo k : Nat) (w : Byte) (m : Memory) :
    Memory.wfFrom lo ((k, w) :: m) = true ↔
      lo ≤ k ∧ k < 256 ∧ w ≠ Memory.unlisted ∧ Memory.wfFrom (k + 1) m = true := by
  simp [Memory.wfFrom, and_assoc]

/-- A lower bound on the addresses may be lowered. -/
theorem Memory.wfFrom_mono {lo lo' : Nat} (h : lo' ≤ lo) : ∀ {m : Memory}, Memory.wfFrom lo m = true → Memory.wfFrom lo' m = true
  | [], _ => rfl
  | (k, w) :: m, hm => by
    rw [Memory.wfFrom_cons] at hm ⊢
    exact ⟨h.trans hm.1, hm.2⟩

/-- A cell below the lower bound is not listed. -/
theorem Memory.read_below {lo addr : Nat} (h : addr < lo) : ∀ {m : Memory}, Memory.wfFrom lo m = true → m.read addr = Memory.unlisted
  | [], _ => rfl
  | (k, w) :: m, hm => by
    rw [Memory.wfFrom_cons] at hm
    have hk : k ≠ addr := by omega
    simp only [Memory.read, hk, if_false]
    exact Memory.read_below (by omega) hm.2.2.2

/-- A write keeps the canonical form from any lower bound that the address respects. -/
theorem Memory.wfFrom_write {addr : Nat} (v : Byte) (ha : addr < 256) :
    ∀ {m : Memory} {lo : Nat}, lo ≤ addr → Memory.wfFrom lo m = true → Memory.wfFrom lo (m.write addr v) = true
  | [], lo, hl, _ => by
    by_cases hv : v = Memory.unlisted
    · simp [Memory.write, hv, Memory.wfFrom]
    · simp [Memory.write, hv, Memory.wfFrom, hl, ha]
  | (k, w) :: m, lo, hl, hm => by
    have hm' := hm
    rw [Memory.wfFrom_cons] at hm
    obtain ⟨h1, h2, h3, h4⟩ := hm
    unfold Memory.write
    split
    · split
      · exact hm'
      · rename_i hlt hv
        rw [Memory.wfFrom_cons, Memory.wfFrom_cons]
        exact ⟨hl, ha, hv, hlt, h2, h3, h4⟩
    · split
      · rename_i heq
        split
        · exact Memory.wfFrom_mono (by omega) h4
        · rename_i hv
          rw [Memory.wfFrom_cons]
          exact ⟨hl, ha, hv, heq ▸ h4⟩
      · rename_i hlt hne
        rw [Memory.wfFrom_cons]
        exact ⟨h1, h2, h3, Memory.wfFrom_write v ha (by omega) h4⟩

/-- A write keeps the canonical form. -/
theorem Memory.wf_write {m : Memory} {addr : Nat} (v : Byte) (ha : addr < 256) (hm : m.wf = true) :
    (m.write addr v).wf = true := Memory.wfFrom_write v ha (Nat.zero_le _) hm

/-- A write leaves every other cell alone, in any list of cells. -/
theorem Memory.read_write_ne {addr k : Nat} (v : Byte) (h : k ≠ addr) : ∀ m : Memory, (m.write addr v).read k = m.read k
  | [] => by
    by_cases hv : v = Memory.unlisted <;> simp [Memory.write, hv, Memory.read, h.symm]
  | (j, w) :: m => by
    unfold Memory.write
    split
    · split
      · rfl
      · simp [Memory.read, h.symm]
    · split
      · rename_i heq
        have hj : j ≠ k := by omega
        split <;> simp [Memory.read, hj, h.symm]
      · simp only [Memory.read, Memory.read_write_ne v h m]

/-- A read after a write to the same cell gives the value written. -/
theorem Memory.read_write_eqFrom {addr : Nat} (v : Byte) : ∀ {m : Memory} {lo : Nat}, Memory.wfFrom lo m = true → (m.write addr v).read addr = v
  | [], _, _ => by
    by_cases hv : v = Memory.unlisted <;> simp [Memory.write, hv, Memory.read]
  | (k, w) :: m, lo, hm => by
    have hm' := hm
    rw [Memory.wfFrom_cons] at hm
    obtain ⟨-, -, -, h4⟩ := hm
    unfold Memory.write
    split
    · rename_i hlt
      split
      · rename_i hv
        rw [Memory.wfFrom_cons] at hm'
        have hk : k ≠ addr := by omega
        simp only [Memory.read, hk, if_false, hv]
        exact Memory.read_below (by omega) h4
      · simp [Memory.read]
    · split
      · rename_i heq
        subst heq
        split
        · rename_i hv
          rw [hv]
          exact Memory.read_below (Nat.lt_succ_self _) h4
        · simp [Memory.read]
      · rename_i hne
        have hk : k ≠ addr := fun h => hne h.symm
        simp only [Memory.read, hk, if_false]
        exact Memory.read_write_eqFrom v h4

/-- A read after a write to the same cell of a canonical memory gives the value written. -/
theorem Memory.read_write_eq {m : Memory} (addr : Nat) (v : Byte) (hm : m.wf = true) : (m.write addr v).read addr = v :=
  Memory.read_write_eqFrom v hm

end Sys2Proof.Machine
end

