-- ==== Sys2Proof/Laws/State.lean ====
section
/-! SUPPORT. One lemma per field per update of the state, each by `rfl`, and the monad laws of `Except` the
meanings are written in. -/

namespace Sys2Proof.Machine

section Except
variable {ε α β : Type}
@[simp] theorem bind_ok (a : α) (f : α → Except ε β) : (Except.ok a >>= f) = f a := rfl
@[simp] theorem bind_error (r : ε) (f : α → Except ε β) : ((Except.error r : Except ε α) >>= f) = .error r := rfl
@[simp] theorem pure_eq_ok (a : α) : (pure a : Except ε α) = .ok a := rfl
end Except

@[simp] theorem finish_ok (s : State) : finish (.ok s) = .next s := rfl
@[simp] theorem finish_error (f : Fault) : finish (.error f) = .fault f := rfl

/-- One spelling for the stack pointer: register 7 (R24). -/
@[simp] theorem State.sp_eq (s : State) : s.sp = s.x[7] := rfl

theorem pushAddr_eq (s : State) : pushAddr s = (s.x[7] - 1#8).toNat := rfl

theorem popAddr_eq (s : State) : popAddr s = (s.x[7]).toNat := rfl

/-- The decrement of the stack pointer as a number (R22). -/
theorem toNat_dec (v : Byte) : (v - 1#8).toNat = (v.toNat + 255) % 256 := by
  rw [BitVec.toNat_sub]
  simp [Nat.add_comm]

/-- The increment of the stack pointer as a number (R22). -/
theorem toNat_inc (v : Byte) : (v + 1#8).toNat = (v.toNat + 1) % 256 := by
  simp [BitVec.toNat_add]

section Updates
variable (s : State) (n : Nat) (v : Byte) (p : Bool)

@[simp] theorem pcAdvance_x : (pcAdvance n s).x = s.x := rfl
@[simp] theorem pcAdvance_pc : (pcAdvance n s).pc = s.pc + n := rfl
@[simp] theorem pcAdvance_e : (pcAdvance n s).e = s.e := rfl
@[simp] theorem pcAdvance_run : (pcAdvance n s).run = s.run := rfl
@[simp] theorem pcAdvance_mem : (pcAdvance n s).mem = s.mem := rfl
@[simp] theorem pcAdvance_out : (pcAdvance n s).out = s.out := rfl

@[simp] theorem pcSet_x : (pcSet v s).x = s.x := rfl
@[simp] theorem pcSet_pc : (pcSet v s).pc = v.toNat := rfl
@[simp] theorem pcSet_e : (pcSet v s).e = s.e := rfl
@[simp] theorem pcSet_run : (pcSet v s).run = s.run := rfl
@[simp] theorem pcSet_mem : (pcSet v s).mem = s.mem := rfl
@[simp] theorem pcSet_out : (pcSet v s).out = s.out := rfl

@[simp] theorem halt_x : (halt s).x = s.x := rfl
@[simp] theorem halt_pc : (halt s).pc = s.pc := rfl
@[simp] theorem halt_e : (halt s).e = s.e := rfl
@[simp] theorem halt_run : (halt s).run = .halted := rfl
@[simp] theorem halt_mem : (halt s).mem = s.mem := rfl
@[simp] theorem halt_out : (halt s).out = s.out := rfl

@[simp] theorem emit_x : (emit v s).x = s.x := rfl
@[simp] theorem emit_pc : (emit v s).pc = s.pc := rfl
@[simp] theorem emit_e : (emit v s).e = s.e := rfl
@[simp] theorem emit_run : (emit v s).run = s.run := rfl
@[simp] theorem emit_mem : (emit v s).mem = s.mem := rfl
@[simp] theorem emit_out : (emit v s).out = s.out ++ [v] := rfl

@[simp] theorem setEqual_x : (setEqual p s).x = s.x := rfl
@[simp] theorem setEqual_pc : (setEqual p s).pc = s.pc := rfl
@[simp] theorem setEqual_e : (setEqual p s).e = p := rfl
@[simp] theorem setEqual_run : (setEqual p s).run = s.run := rfl
@[simp] theorem setEqual_mem : (setEqual p s).mem = s.mem := rfl
@[simp] theorem setEqual_out : (setEqual p s).out = s.out := rfl

@[simp] theorem spDecrement_x : (spDecrement s).x = s.x.set 7 (s.sp - 1#8) := rfl
@[simp] theorem spDecrement_pc : (spDecrement s).pc = s.pc := rfl
@[simp] theorem spDecrement_e : (spDecrement s).e = s.e := rfl
@[simp] theorem spDecrement_run : (spDecrement s).run = s.run := rfl
@[simp] theorem spDecrement_mem : (spDecrement s).mem = s.mem := rfl
@[simp] theorem spDecrement_out : (spDecrement s).out = s.out := rfl

@[simp] theorem spIncrement_x : (spIncrement s).x = s.x.set 7 (s.sp + 1#8) := rfl
@[simp] theorem spIncrement_pc : (spIncrement s).pc = s.pc := rfl
@[simp] theorem spIncrement_e : (spIncrement s).e = s.e := rfl
@[simp] theorem spIncrement_run : (spIncrement s).run = s.run := rfl
@[simp] theorem spIncrement_mem : (spIncrement s).mem = s.mem := rfl
@[simp] theorem spIncrement_out : (spIncrement s).out = s.out := rfl

@[simp] theorem placeBytes_x (ir a b : Byte) : (placeBytes ir a b s).x = s.x := rfl
@[simp] theorem placeBytes_pc (ir a b : Byte) : (placeBytes ir a b s).pc = placeAt s := rfl
@[simp] theorem placeBytes_e (ir a b : Byte) : (placeBytes ir a b s).e = s.e := rfl
@[simp] theorem placeBytes_run (ir a b : Byte) : (placeBytes ir a b s).run = .running := rfl
@[simp] theorem placeBytes_mem (ir a b : Byte) : (placeBytes ir a b s).mem =
    ((s.mem.write (placeAt s) ir).write (placeAt s + 1) a).write (placeAt s + 2) b := rfl
@[simp] theorem placeBytes_out (ir a b : Byte) : (placeBytes ir a b s).out = s.out := rfl

end Updates

end Sys2Proof.Machine
end

