-- ==== Sys2Proof/Laws/Ops.lean ====
section
/-! SUPPORT. For each shared operation, once, everything it can do: its success under its condition, its fault
otherwise. Later proofs cite these and do not unfold the operations. -/

namespace Sys2Proof.Machine

variable {s t : State} {f : Fault} {addr : Nat} {i v : Byte}

theorem memRead_ok (h : addr < 256) : memRead addr s = .ok (s.mem.read addr) := if_pos h

theorem memRead_error (h : 256 ≤ addr) : memRead addr s = .error (.raised .outOfBounds addr s.out) :=
  if_neg (Nat.not_lt.mpr h)

/-- `memRead` answers a byte exactly when the address is in range, and it is the cell's. -/
theorem memRead_eq_ok : memRead addr s = .ok v ↔ addr < 256 ∧ v = s.mem.read addr := by
  by_cases h : addr < 256
  · simp [memRead_ok h, h, eq_comm]
  · simp [memRead_error (Nat.not_lt.mp h), h]

theorem memWrite_ok (h : addr < 256) : memWrite addr v s = .ok { s with mem := s.mem.write addr v } := if_pos h

theorem memWrite_error (h : 256 ≤ addr) : memWrite addr v s = .error (.raised .outOfBounds addr s.out) :=
  if_neg (Nat.not_lt.mpr h)

/-- `memWrite` answers a state exactly when the address is in range; only that cell changes. -/
theorem memWrite_eq_ok : memWrite addr v s = .ok t ↔ addr < 256 ∧ t = { s with mem := s.mem.write addr v } := by
  by_cases h : addr < 256
  · simp [memWrite_ok h, h, eq_comm]
  · simp [memWrite_error (Nat.not_lt.mp h), h]

theorem regRead_ok (h : i.toNat < 8) : regRead i s = .ok (s.x[i.toNat]'h) := dif_pos h

theorem regRead_error (h : 8 ≤ i.toNat) : regRead i s = .error (.raised .outOfBounds i.toNat s.out) :=
  dif_neg (Nat.not_lt.mpr h)

/-- `regRead` answers a value exactly when the index names a register, and it is the register's. -/
theorem regRead_eq_ok : regRead i s = .ok v ↔ s.x[i.toNat]? = some v := by
  by_cases h : i.toNat < 8
  · simp [regRead_ok h, h]
  · simp [regRead_error (Nat.not_lt.mp h), h]

theorem regWrite_ok (h : i.toNat < 8) : regWrite i v s = .ok { s with x := s.x.set i.toNat v h } := dif_pos h

theorem regWrite_error (h : 8 ≤ i.toNat) : regWrite i v s = .error (.raised .outOfBounds i.toNat s.out) :=
  dif_neg (Nat.not_lt.mpr h)

/-- `regWrite` answers a state exactly when the index names a register; only that register changes. -/
theorem regWrite_eq_ok : regWrite i v s = .ok t ↔ ∃ h : i.toNat < 8, t = { s with x := s.x.set i.toNat v h } := by
  by_cases h : i.toNat < 8
  · simp [regWrite_ok h, h, eq_comm]
  · simp [regWrite_error (Nat.not_lt.mp h), h]

theorem pushAddr_lt : pushAddr s < 256 := (s.sp - 1#8).isLt

theorem popAddr_lt : popAddr s < 256 := s.sp.isLt

/-- The three reads of a fetch succeed exactly when `pc` is at most 253 (R113). -/
theorem fetch_ok (h : s.pc ≤ 253) :
    fetch s = .ok (s.mem.read s.pc, s.mem.read (s.pc + 1), s.mem.read (s.pc + 2)) := by
  have h0 : s.pc < 256 := by omega
  have h1 : s.pc + 1 < 256 := by omega
  have h2 : s.pc + 2 < 256 := by omega
  simp [fetch, memRead_ok h0, memRead_ok h1, memRead_ok h2]

/-- What a step runs, when it runs something. -/
theorem nextInstr_eq_ok {opc : Assignment} {i : Instr} : nextInstr opc s = .ok i ↔
    s.run = .running ∧ s.pc ≤ 253 ∧
      decodeFetched opc (s.mem.read s.pc) (s.mem.read (s.pc + 1)) (s.mem.read (s.pc + 2)) = .ok i := by
  unfold nextInstr
  cases hr : s.run with
  | halted => simp
  | faulted c n => simp
  | running =>
    by_cases hp : s.pc ≤ 253
    · simp only [fetch_ok hp, bind_ok, dispatch, hp, true_and]
      cases decodeFetched opc (s.mem.read s.pc) (s.mem.read (s.pc + 1)) (s.mem.read (s.pc + 2)) <;> simp
    · simp only [hp, false_and, and_false, iff_false]
      intro h
      have : fetch s = .error (.raised .outOfBounds (max s.pc 256) s.out) := by
        unfold fetch
        by_cases h0 : s.pc < 256
        · by_cases h1 : s.pc + 1 < 256
          · have : s.pc + 2 = 256 := by omega
            simp [memRead_ok h0, memRead_ok h1, this, memRead_error (Nat.le_refl 256), show max s.pc 256 = 256 by omega]
          · have : s.pc + 1 = 256 := by omega
            simp [memRead_ok h0, this, memRead_error (Nat.le_refl 256), show max s.pc 256 = 256 by omega]
        · simp [memRead_error (Nat.not_lt.mp h0), show max s.pc 256 = s.pc by omega]
      simp [this] at h

end Sys2Proof.Machine
end

