-- ==== Sys2Proof/Laws/Exec.lean ====
section
/-! SUPPORT. Inversion: for each meaning, exactly when it answers a next state and which one, and exactly when it
faults and how. Then the same of the step. Later proofs cite these and do not unfold the meanings. -/

namespace Sys2Proof.Machine

variable {a b imm : Byte} {s t : State} {f : Fault}

/-- The fault of an access to a register that does not exist (R201). -/
abbrev noRegister (i : Byte) (s : State) : Fault := .raised .outOfBounds i.toNat s.out

/-! ## The shared parts -/

theorem aluSources_ok (ha : a.toNat < 8) (hb : b.toNat < 8) :
    aluSources a b s = .ok (s.x[a.toNat]'ha, s.x[b.toNat]'hb) := by
  simp [aluSources, regRead_ok ha, regRead_ok hb]

theorem aluSources_errorA (ha : 8 ≤ a.toNat) : aluSources a b s = .error (noRegister a s) := by
  simp [aluSources, regRead_error ha]

theorem aluSources_errorB (ha : a.toNat < 8) (hb : 8 ≤ b.toNat) : aluSources a b s = .error (noRegister b s) := by
  simp [aluSources, regRead_ok ha, regRead_error hb]

/-- The state an ALU operation leaves, the program counter apart (R150). -/
def aluResult (op : AluOp) (i : Nat) (hi : i < 8) (va vb : Byte) (s : State) : State :=
  match op with
  | .add => { s with x := s.x.set i (addMod va vb) hi }
  | .mul => { s with x := s.x.set i (mulMod va vb) hi }
  | .cmp => { s with e := equalOf va vb }

theorem aluApply_ok (op : AluOp) (ha : a.toNat < 8) (hb : b.toNat < 8) :
    aluApply op a b s = .ok (aluResult op a.toNat ha (s.x[a.toNat]'ha) (s.x[b.toNat]'hb) s) := by
  cases op <;> simp [aluApply, aluSources_ok ha hb, aluResult, regWrite_ok ha, setEqual]

/-- An ALU instruction answers a next state exactly when both operands name registers. -/
theorem execAlu_next (op : AluOp) : execAlu op a b s = .next t ↔
    ∃ (ha : a.toNat < 8) (hb : b.toNat < 8),
      t = pcAdvance 3 (aluResult op a.toNat ha (s.x[a.toNat]'ha) (s.x[b.toNat]'hb) s) := by
  by_cases ha : a.toNat < 8
  · by_cases hb : b.toNat < 8
    · simp [execAlu, aluApply_ok op ha hb, ha, hb, eq_comm]
    · simp [execAlu, aluApply, aluSources_errorB ha (Nat.not_lt.mp hb), hb]
  · simp [execAlu, aluApply, aluSources_errorA (Nat.not_lt.mp ha), ha]

/-- An ALU instruction faults on operand A first, then on operand B (R208). -/
theorem execAlu_fault (op : AluOp) : execAlu op a b s = .fault f ↔
    (8 ≤ a.toNat ∧ f = noRegister a s) ∨ (a.toNat < 8 ∧ 8 ≤ b.toNat ∧ f = noRegister b s) := by
  by_cases ha : a.toNat < 8
  · by_cases hb : b.toNat < 8
    · simp [execAlu, aluApply_ok op ha hb, ha, hb]
    · simp [execAlu, aluApply, aluSources_errorB ha (Nat.not_lt.mp hb), ha, Nat.not_lt.mp hb, eq_comm]
  · simp [execAlu, aluApply, aluSources_errorA (Nat.not_lt.mp ha), ha, Nat.not_lt.mp ha, eq_comm]

/-- A conditional jump not taken reads no register. -/
theorem branchIf_false : branchIf false a s = .ok (pcAdvance 2 s) := rfl

theorem branchIf_true_ok (h : a.toNat < 8) : branchIf true a s = .ok (pcSet (s.x[a.toNat]'h) s) := by
  simp [branchIf, regRead_ok h]

theorem branchIf_true_error (h : 8 ≤ a.toNat) : branchIf true a s = .error (noRegister a s) := by
  simp [branchIf, regRead_error h]

/-! ## The meanings -/

theorem execHlt_next : execHlt s = .next t ↔ t = pcAdvance 1 (halt s) := by simp [execHlt, eq_comm]

theorem execHlt_no_fault : execHlt s ≠ .fault f := by simp [execHlt]

theorem execPrn_next : execPrn a s = .next t ↔
    ∃ h : a.toNat < 8, t = pcAdvance 2 (emit (s.x[a.toNat]'h) s) := by
  by_cases h : a.toNat < 8
  · simp [execPrn, regRead_ok h, h, eq_comm]
  · simp [execPrn, regRead_error (Nat.not_lt.mp h), h]

theorem execPrn_fault : execPrn a s = .fault f ↔ 8 ≤ a.toNat ∧ f = noRegister a s := by
  by_cases h : a.toNat < 8
  · simp [execPrn, regRead_ok h, h]
  · simp [execPrn, regRead_error (Nat.not_lt.mp h), Nat.not_lt.mp h, eq_comm]

theorem execLdi_next : execLdi a imm s = .next t ↔
    ∃ h : a.toNat < 8, t = pcAdvance 3 { s with x := s.x.set a.toNat imm h } := by
  by_cases h : a.toNat < 8
  · simp [execLdi, immediate, regWrite_ok h, h, eq_comm]
  · simp [execLdi, regWrite_error (Nat.not_lt.mp h), h]

theorem execLdi_fault : execLdi a imm s = .fault f ↔ 8 ≤ a.toNat ∧ f = noRegister a s := by
  by_cases h : a.toNat < 8
  · simp [execLdi, regWrite_ok h, h]
  · simp [execLdi, regWrite_error (Nat.not_lt.mp h), Nat.not_lt.mp h, eq_comm]

/-- The state after `SP` went down and a byte was stored where it then points: what PUSH and CALL share. -/
def stacked (v : Byte) (s : State) : State :=
  { spDecrement s with mem := s.mem.write (pushAddr s) v }

theorem execPush_next : execPush a s = .next t ↔
    ∃ h : a.toNat < 8, t = pcAdvance 2 (stacked ((spDecrement s).x[a.toNat]'h) s) := by
  by_cases h : a.toNat < 8
  · simp [execPush, regRead_ok h, memWrite_ok pushAddr_lt, h, stacked, eq_comm]
  · simp [execPush, regRead_error (Nat.not_lt.mp h), h]

theorem execPush_fault : execPush a s = .fault f ↔ 8 ≤ a.toNat ∧ f = noRegister a s := by
  by_cases h : a.toNat < 8
  · simp [execPush, regRead_ok h, memWrite_ok pushAddr_lt, h]
  · simp [execPush, regRead_error (Nat.not_lt.mp h), Nat.not_lt.mp h, eq_comm]

theorem execPop_next : execPop a s = .next t ↔
    ∃ h : a.toNat < 8, t = pcAdvance 2 (spIncrement { s with x := s.x.set a.toNat (s.mem.read (popAddr s)) h }) := by
  by_cases h : a.toNat < 8
  · simp [execPop, memRead_ok popAddr_lt, regWrite_ok h, h, eq_comm]
  · simp [execPop, memRead_ok popAddr_lt, regWrite_error (Nat.not_lt.mp h), h]

theorem execPop_fault : execPop a s = .fault f ↔ 8 ≤ a.toNat ∧ f = noRegister a s := by
  by_cases h : a.toNat < 8
  · simp [execPop, memRead_ok popAddr_lt, regWrite_ok h, h]
  · simp [execPop, memRead_ok popAddr_lt, regWrite_error (Nat.not_lt.mp h), Nat.not_lt.mp h, eq_comm]

theorem execCall_next : execCall a s = .next t ↔
    ∃ h : a.toNat < 8, t = pcSet ((spDecrement s).x[a.toNat]'h) (stacked (returnAddr s) s) := by
  by_cases h : a.toNat < 8
  · simp [execCall, memWrite_ok pushAddr_lt, regRead_ok h, h, stacked, eq_comm]
  · simp [execCall, memWrite_ok pushAddr_lt, regRead_error (Nat.not_lt.mp h), h]

theorem execCall_fault : execCall a s = .fault f ↔ 8 ≤ a.toNat ∧ f = noRegister a s := by
  by_cases h : a.toNat < 8
  · simp [execCall, memWrite_ok pushAddr_lt, regRead_ok h, h]
  · simp [execCall, memWrite_ok pushAddr_lt, regRead_error (Nat.not_lt.mp h), Nat.not_lt.mp h, eq_comm]

theorem execRet_next : execRet s = .next t ↔ t = pcSet (s.mem.read (popAddr s)) (spIncrement s) := by
  simp [execRet, memRead_ok popAddr_lt, eq_comm]

theorem execRet_no_fault : execRet s ≠ .fault f := by simp [execRet, memRead_ok popAddr_lt]

theorem execJmp_next : execJmp a s = .next t ↔ ∃ h : a.toNat < 8, t = pcSet (s.x[a.toNat]'h) s := by
  by_cases h : a.toNat < 8
  · simp [execJmp, regRead_ok h, h, eq_comm]
  · simp [execJmp, regRead_error (Nat.not_lt.mp h), h]

theorem execJmp_fault : execJmp a s = .fault f ↔ 8 ≤ a.toNat ∧ f = noRegister a s := by
  by_cases h : a.toNat < 8
  · simp [execJmp, regRead_ok h, h]
  · simp [execJmp, regRead_error (Nat.not_lt.mp h), Nat.not_lt.mp h, eq_comm]

/-- A conditional jump, by its condition: taken through a register that exists, or not taken. -/
theorem branchIf_next (c : Bool) : finish (branchIf c a s) = .next t ↔
    (c = true ∧ ∃ h : a.toNat < 8, t = pcSet (s.x[a.toNat]'h) s) ∨ (c = false ∧ t = pcAdvance 2 s) := by
  cases c
  · simp [branchIf_false, eq_comm]
  · by_cases h : a.toNat < 8
    · simp [branchIf_true_ok h, h, eq_comm]
    · simp [branchIf_true_error (Nat.not_lt.mp h), h]

/-- A conditional jump faults exactly when it is taken and its operand names no register. -/
theorem branchIf_fault (c : Bool) : finish (branchIf c a s) = .fault f ↔ c = true ∧ 8 ≤ a.toNat ∧ f = noRegister a s := by
  cases c
  · simp [branchIf_false]
  · by_cases h : a.toNat < 8
    · simp [branchIf_true_ok h, h]
    · simp [branchIf_true_error (Nat.not_lt.mp h), Nat.not_lt.mp h, eq_comm]

/-- A handler answers a next state or a fault, never a refusal. -/
theorem finish_not_refused (r : Except Fault State) (q : Refusal) : finish r ≠ .refused q := by
  cases r <;> simp [finish]

theorem exec_not_refused (i : Instr) (s : State) (q : Refusal) : exec i s ≠ .refused q := by
  cases i <;> simp only [exec, execHlt, execLdi, execPrn, execAdd, execMul, execAlu, execPush, execPop, execCall,
    execRet, execCmp, execJmp, execJeq, execJne] <;> exact finish_not_refused _ q

/-! ## The step -/

/-- A step answers a next state exactly when the machine runs, the fetch succeeds, the bytes decode, and the
handler answers it. -/
theorem stepWith_next {opc : Assignment} : stepWith opc s = .next t ↔
    ∃ i, nextInstr opc s = .ok i ∧ exec i s = .next t := by
  unfold stepWith
  cases nextInstr opc s <;> simp

theorem stepWith_fault {opc : Assignment} : stepWith opc s = .fault f ↔
    nextInstr opc s = .error f ∨ ∃ i, nextInstr opc s = .ok i ∧ exec i s = .fault f := by
  unfold stepWith
  cases nextInstr opc s <;> simp

/-! ## The loader -/

theorem loadBytes_nil (addr : Nat) (s : State) : loadBytes [] addr s = .ok s := rfl

theorem loadBytes_cons {v : Byte} {vs : List Byte} {addr : Nat} (h : addr < 256) :
    loadBytes (v :: vs) addr s = loadBytes vs (addr + 1) { s with mem := s.mem.write addr v } := by
  simp [loadBytes, memWrite_ok h]

theorem loadBytes_cons_error {v : Byte} {vs : List Byte} {addr : Nat} (h : 256 ≤ addr) :
    loadBytes (v :: vs) addr s = .error (.raised .outOfBounds addr s.out) := by
  simp [loadBytes, memWrite_error h]

/-- The loader keeps the canonical form of memory and touches nothing else (R247). -/
theorem loadBytes_ok : ∀ {vs : List Byte} {addr : Nat} {s t : State}, s.mem.wf = true → loadBytes vs addr s = .ok t →
    t.mem.wf = true ∧ t.x = s.x ∧ t.pc = s.pc ∧ t.e = s.e ∧ t.run = s.run ∧ t.out = s.out
  | [], addr, s, t, hm, h => by
    simp only [loadBytes_nil, Except.ok.injEq] at h
    subst h
    exact ⟨hm, rfl, rfl, rfl, rfl, rfl⟩
  | v :: vs, addr, s, t, hm, h => by
    by_cases ha : addr < 256
    · rw [loadBytes_cons ha] at h
      exact loadBytes_ok (s := { s with mem := s.mem.write addr v }) (Memory.wf_write v ha hm) h
    · simp [loadBytes_cons_error (Nat.not_lt.mp ha)] at h

end Sys2Proof.Machine
end

