-- ==== Sys2Proof/Laws/PerInstr.lean ====
section
/-! SUPPORT. Families of facts about the instruction as syntax, one lemma per constructor. -/

namespace Sys2Proof.Laws

/-- The bytes of an instruction: its length (R80, R88), and its high bits under an admissible assignment (R81). -/
def EncodedLength.Statement (i : Instr) : Prop :=
  ∀ opc : Assignment, Admissible opc →
    (encodeWith opc i).length = i.length ∧ (opc i.mnemonic).toNat / 64 + 1 = i.length

/-- The length and the high bits, given that the operand bytes are as many as the table says. -/
theorem EncodedLength.of_operands {i : Instr} (h : i.operands.length = operandCount i.mnemonic) :
    EncodedLength.Statement i := fun _ ha =>
  ⟨congrArg (· + 1) h, congrArg (· + 1) (ha.highBits i.mnemonic)⟩

theorem EncodedLength.hlt : EncodedLength.Statement .hlt := of_operands rfl
theorem EncodedLength.ldi (a imm : Byte) : EncodedLength.Statement (.ldi a imm) := of_operands rfl
theorem EncodedLength.prn (a : Byte) : EncodedLength.Statement (.prn a) := of_operands rfl
theorem EncodedLength.add (a b : Byte) : EncodedLength.Statement (.add a b) := of_operands rfl
theorem EncodedLength.mul (a b : Byte) : EncodedLength.Statement (.mul a b) := of_operands rfl
theorem EncodedLength.push (a : Byte) : EncodedLength.Statement (.push a) := of_operands rfl
theorem EncodedLength.pop (a : Byte) : EncodedLength.Statement (.pop a) := of_operands rfl
theorem EncodedLength.call (a : Byte) : EncodedLength.Statement (.call a) := of_operands rfl
theorem EncodedLength.ret : EncodedLength.Statement .ret := of_operands rfl
theorem EncodedLength.cmp (a b : Byte) : EncodedLength.Statement (.cmp a b) := of_operands rfl
theorem EncodedLength.jmp (a : Byte) : EncodedLength.Statement (.jmp a) := of_operands rfl
theorem EncodedLength.jeq (a : Byte) : EncodedLength.Statement (.jeq a) := of_operands rfl
theorem EncodedLength.jne (a : Byte) : EncodedLength.Statement (.jne a) := of_operands rfl

end Sys2Proof.Laws
end

