-- ==== Sys2Proof/Tests/Slice0.lean ====
section
/-! SUPPORT. Tests: decoding of words written out from spec/30_encoding.md, one-step vectors of
spec/95_test_vectors.md (each test names its vector), ill-formed instructions, and for every obligation with
hypotheses a state that meets them. Expected values come from the spec, not from the model. -/

namespace Sys2Proof.Tests

open Sys2Proof Sys2Proof.Machine

/-! ## Helpers -/

/-- A running machine with the given registers, program counter, flag and cells, nothing output yet. -/
def start (x : Vector Byte 8) (pc : Nat) (e : Bool) (mem : Memory) : State :=
  { State.reset with x := x, pc := pc, e := e, mem := mem }

/-- The next state, if there is one. -/
def after (o : Host.Outcome State Fault Refusal) : Option State :=
  match o with
  | .next s => some s
  | _ => none

/-- The fault, if there is one. -/
def faultOf (o : Host.Outcome State Fault Refusal) : Option Fault :=
  match o with
  | .fault f => some f
  | _ => none

/-- The state of a boot, if the loader succeeds. -/
def booted (image : List Byte) : Option State := (bootImage image).toOption

/-! ## Decoding: V-DEC, opcode bytes written bit by bit from R89, operands from R80 -/

theorem test_decode_hlt : decodeFetched defaultOpc 0b00000001#8 0xFF#8 0xFF#8 = .ok .hlt := by decide
theorem test_decode_ldi : decodeFetched defaultOpc 0b10000010#8 0x03#8 0xFF#8 = .ok (.ldi 3 255) := by decide
theorem test_decode_prn : decodeFetched defaultOpc 0b01000111#8 0x07#8 0xFF#8 = .ok (.prn 7) := by decide
theorem test_decode_add : decodeFetched defaultOpc 0b10100000#8 0x00#8 0x01#8 = .ok (.add 0 1) := by decide
theorem test_decode_mul : decodeFetched defaultOpc 0b10100010#8 0x02#8 0x03#8 = .ok (.mul 2 3) := by decide
theorem test_decode_push : decodeFetched defaultOpc 0b01000101#8 0x05#8 0xFF#8 = .ok (.push 5) := by decide
theorem test_decode_pop : decodeFetched defaultOpc 0b01000110#8 0x06#8 0xFF#8 = .ok (.pop 6) := by decide
theorem test_decode_call : decodeFetched defaultOpc 0b01010000#8 0x01#8 0xFF#8 = .ok (.call 1) := by decide
theorem test_decode_ret : decodeFetched defaultOpc 0b00010001#8 0xFF#8 0xFF#8 = .ok .ret := by decide
theorem test_decode_cmp : decodeFetched defaultOpc 0b10100111#8 0x00#8 0x01#8 = .ok (.cmp 0 1) := by decide
theorem test_decode_jmp : decodeFetched defaultOpc 0b01010100#8 0x02#8 0xFF#8 = .ok (.jmp 2) := by decide
theorem test_decode_jeq : decodeFetched defaultOpc 0b01010101#8 0x02#8 0xFF#8 = .ok (.jeq 2) := by decide
theorem test_decode_jne : decodeFetched defaultOpc 0b01010110#8 0x02#8 0xFF#8 = .ok (.jne 2) := by decide

/-- V-DEC's last row: the neighbours of the defined opcodes are unknown. -/
theorem test_decode_unknown :
    ∀ ir ∈ [0x00#8, 0x02#8, 0x10#8, 0x12#8, 0x44#8, 0x48#8, 0x51#8, 0x53#8, 0x57#8, 0x81#8, 0x83#8, 0xA1#8, 0xA3#8, 0xA6#8, 0xA8#8,
      0xC0#8, 0xFF#8], decodeFetched defaultOpc ir 0x00#8 0x00#8 = .error (.unknownOpcode ir) := by decide

/-- The static decoder on the image of P1 (R94): LDI, then the bytes after it; and a cut-off LDI. -/
theorem test_decode_bytes : decodeBytes defaultOpc [0x82#8, 0x00#8, 0x08#8, 0x82#8] = .ok (.ldi 0 8, [0x82#8]) ∧
    decodeBytes defaultOpc [0x82#8, 0x00#8] = .error (.missingOperand .ldi) := by decide

/-- Table words: byte 0 is the opcode byte, the bytes above the word are 0. -/
theorem test_decode_table_word : decodeTableWord 24 0x0501A0 = some (.add 1 5) ∧ decodeTableWord 8 0xFF01 = some .hlt ∧
    decodeTableWord 8 0x00 = none := by decide

/-! ## Ill-formed instructions: each check refuses one -/

theorem test_ill_formed_operand_a : operandAValid (.ldi 8 0) = false ∧ wellFormed (.ldi 8 0) = false := by decide
theorem test_ill_formed_operand_b : operandBValid (.add 0 8) = false ∧ wellFormed (.add 0 8) = false := by decide
theorem test_well_formed_boundary : wellFormed (.add 7 7) = true ∧ wellFormed (.ldi 7 200) = true := by decide

/-! ## Reset, image, output text -/

/-- Z1: the empty image; the first step faults. -/
theorem test_reset_empty : faultOf (step State.reset) = some (.raised .unknownOpcode 0 []) := by decide
/-- Z2: image `01`. -/
theorem test_boot_hlt : (booted [0x01#8]).bind (fun s => after (step s)) =
    some { State.reset with pc := 1, run := .halted, mem := [(0, 0x01#8)] } := by decide
/-- R132 and D11: the shortest decimal form, then a line feed. -/
theorem test_render : renderOutput [72#8, 0#8, 255#8] = "72\n0\n255\n".toList := by decide
/-- R212: exit status 0 after HLT, 1 after an unknown opcode. -/
theorem test_exit_status : exitStatus .halted = some 0 ∧ exitStatus (.faulted .unknownOpcode 0) = some 1 := by decide

/-! ## Fetch (V-FETCH) -/

/-- F2, F3, F4: 254, 255 and 256 fault whatever stands there. -/
theorem test_fetch_top : ∀ pc ∈ [254, 255, 256],
    faultOf (step (start State.reset.x pc false [(254, 0x01#8), (255, 0x01#8)])) = some (.raised .outOfBounds 256 []) := by decide
/-- F8: an unknown opcode is reported before its operands are examined. -/
theorem test_fetch_unknown : faultOf (step (start State.reset.x 10 false [(10, 0xFF#8), (11, 9#8), (12, 9#8)])) =
    some (.raised .unknownOpcode 255 []) := by decide

/-! ## The instructions, at most two vectors each -/

/-- F1: the last place an instruction runs. -/
theorem test_hlt_at_253 : (after (step (start State.reset.x 253 false [(253, 0x01#8)]))).map (fun t => (t.run, t.pc)) =
    some (.halted, 254) := by decide
/-- Y1, second half: no further step. -/
theorem test_hlt_is_terminal : faultOf (step { State.reset with run := .halted }) = some (.noStep .halted) := by decide
/-- Y3: PRN R7. -/
theorem test_prn_sp : (after (step (start State.reset.x 0 false [(0, 0x47#8), (1, 0x07#8)]))).map (fun t => (t.out, t.pc)) =
    some ([244#8], 2) := by decide
/-- Y5: nothing is output before the fault. -/
theorem test_prn_fault : faultOf (step (start State.reset.x 0 false [(0, 0x47#8), (1, 0x08#8)])) =
    some (.raised .outOfBounds 8 []) := by decide
/-- F5: a three-byte instruction at 253 leaves `pc = 256`. -/
theorem test_ldi_at_253 : (after (step (start State.reset.x 253 false [(253, 0x82#8), (254, 0x01#8), (255, 0x4D#8)]))).map
    (fun t => (t.x, t.pc)) = some (#v[0, 77, 0, 0, 0, 0, 0, 244], 256) := by decide
/-- L7: the immediate is not checked as a register index. -/
theorem test_ldi_imm : (after (step (start State.reset.x 0 true [(0, 0x82#8), (2, 0xC8#8)]))).map (fun t => (t.x[0], t.e)) =
    some (200#8, true) := by decide
/-- V-ALU: 200 + 100. -/
theorem test_add_wraps : (after (step (start #v[200, 100, 0, 0, 0, 0, 0, 244] 0 false [(0, 0xA0#8), (2, 0x01#8)]))).map
    (fun t => (t.x, t.e, t.pc)) = some (#v[44, 100, 0, 0, 0, 0, 0, 244], false, 3) := by decide
/-- A6: operand A is reported, not operand B. -/
theorem test_add_fault_order : faultOf (step (start State.reset.x 0 false [(0, 0xA0#8), (1, 0x09#8), (2, 0x0A#8)])) =
    some (.raised .outOfBounds 9 []) := by decide
/-- V-ALU: 255 * 255. -/
theorem test_mul_low_byte : (after (step (start #v[255, 255, 0, 0, 0, 0, 0, 244] 0 false [(0, 0xA2#8), (2, 0x01#8)]))).map
    (fun t => t.x) = some #v[1, 255, 0, 0, 0, 0, 0, 244] := by decide
/-- A3: MUL R2, R2. -/
theorem test_mul_square : (after (step (start #v[0, 0, 15, 0, 0, 0, 0, 244] 0 false [(0, 0xA2#8), (1, 0x02#8), (2, 0x02#8)]))).map
    (fun t => t.x[2]) = some 225#8 := by decide
/-- A9: equal registers set `E`. -/
theorem test_cmp_equal : (after (step (start #v[0, 0, 5, 5, 0, 0, 0, 244] 0 false [(0, 0xA7#8), (1, 0x02#8), (2, 0x03#8)]))).map
    (fun t => (t.e, t.x, t.pc)) = some (true, #v[0, 0, 5, 5, 0, 0, 0, 244], 3) := by decide
/-- A10: unequal registers clear `E`. -/
theorem test_cmp_unequal : (after (step (start #v[0, 0, 5, 6, 0, 0, 0, 244] 0 true [(0, 0xA7#8), (1, 0x02#8), (2, 0x03#8)]))).map
    (fun t => t.e) = some false := by decide
/-- K3: PUSH at `SP = 0` wraps to 255. -/
theorem test_push_wraps : (after (step (start #v[171, 0, 0, 0, 0, 0, 0, 0] 0 false [(0, 0x45#8)]))).map
    (fun t => (t.x[7], t.mem)) = some (255#8, [(0, 0x45#8), (255, 171#8)]) := by decide
/-- K5: PUSH R7 stores the decremented pointer. -/
theorem test_push_sp : (after (step (start State.reset.x 0 false [(0, 0x45#8), (1, 0x07#8)]))).map
    (fun t => (t.x[7], t.mem.read 243)) = some (243#8, 243#8) := by decide
/-- K4: POP at `SP = 255` wraps to 0. -/
theorem test_pop_wraps : (after (step (start #v[0, 0, 0, 0, 0, 0, 0, 255] 0 false [(0, 0x46#8), (255, 90#8)]))).map
    (fun t => (t.x[0], t.x[7], t.mem.read 255)) = some (90#8, 0#8, 90#8) := by decide
/-- K6: POP R7 leaves the popped byte plus one. -/
theorem test_pop_sp : (after (step (start #v[0, 0, 0, 0, 0, 0, 0, 243] 0 false [(0, 0x46#8), (1, 0x07#8), (243, 100#8)]))).map
    (fun t => t.x[7]) = some 101#8 := by decide
/-- T3: CALL at 253 pushes 255. -/
theorem test_call_at_253 : (after (step (start State.reset.x 253 false [(253, 0x50#8), (254, 0x01#8)]))).map
    (fun t => (t.mem.read 243, t.x[7], t.pc)) = some (255#8, 243#8, 0) := by decide
/-- T4: CALL R7 jumps to the decremented pointer. -/
theorem test_call_sp : (after (step (start State.reset.x 0 false [(0, 0x50#8), (1, 0x07#8)]))).map
    (fun t => (t.mem.read 243, t.pc)) = some (2#8, 243) := by decide
/-- T2: RET. -/
theorem test_ret : (after (step (start #v[0, 0, 0, 0, 0, 0, 0, 243] 18 false [(18, 0x11#8), (243, 8#8)]))).map
    (fun t => (t.pc, t.x[7])) = some (8, 244#8) := by decide
/-- F9: RET on the empty stack; the dead bytes are ignored. -/
theorem test_ret_empty : (after (step (start State.reset.x 0 false [(0, 0x11#8), (1, 0xFF#8), (2, 0xFF#8)]))).map
    (fun t => (t.pc, t.x[7])) = some (0, 245#8) := by decide
/-- T6: JMP. -/
theorem test_jmp : (after (step (start #v[0, 0, 20, 0, 0, 0, 0, 244] 0 false [(0, 0x54#8), (1, 0x02#8)]))).map (fun t => t.pc) =
    some 20 := by decide
/-- T9: JMP through a register that does not exist. -/
theorem test_jmp_fault : faultOf (step (start State.reset.x 0 false [(0, 0x54#8), (1, 0x0C#8)])) =
    some (.raised .outOfBounds 12 []) := by decide
/-- T10: JEQ taken. -/
theorem test_jeq_taken : (after (step (start #v[0, 0, 0, 0, 30, 0, 0, 244] 0 true [(0, 0x55#8), (1, 0x04#8)]))).map
    (fun t => (t.pc, t.e)) = some (30, true) := by decide
/-- T14: JEQ not taken does not check its operand. -/
theorem test_jeq_untaken : (after (step (start State.reset.x 0 false [(0, 0x55#8), (1, 0xC8#8)]))).map (fun t => t.pc) = some 2 := by
  decide
/-- T12: JNE taken. -/
theorem test_jne_taken : (after (step (start #v[0, 0, 0, 0, 15, 0, 0, 244] 24 false [(24, 0x56#8), (25, 0x04#8)]))).map
    (fun t => t.pc) = some 15 := by decide
/-- T15: JNE taken through a register that does not exist. -/
theorem test_jne_fault : faultOf (step (start State.reset.x 0 false [(0, 0x56#8), (1, 0xC8#8)])) =
    some (.raised .outOfBounds 200 []) := by decide

/-! ## Witnesses: for each obligation with hypotheses, a state and operands that meet them, clause by clause, at
the boundary values. A hypothesis about a next state is met by showing that there is one. -/

theorem witness_EveryBootStartsAtZero : ∃ t, bootImage [0x01#8] = .ok t := ⟨_, rfl⟩
theorem witness_BootPlacesImageThenZeros : ([0x82#8, 0#8, 8#8] : List Byte).length ≤ 256 ∧ (List.replicate 256 (1#8 : Byte)).length ≤ 256 :=
  ⟨by decide, (List.length_replicate ..).le⟩
theorem witness_LoaderLimitsAndEmptyImage : 256 < (List.replicate 257 (1#8 : Byte)).length ∧ (∀ m, defaultOpc m ≠ 0#8) ∧
    ∃ t, bootImage [] = .ok t := ⟨lt_of_lt_of_eq (by decide) (List.length_replicate ..).symm, fun m => by cases m <;> decide, _, rfl⟩
theorem witness_BootClearsRegistersFlagAndOutput : ∃ t, bootImage [0x01#8, 0x02#8] = .ok t := ⟨_, rfl⟩
theorem witness_MemoryIsCheckedAndHoldsTheLastWrite :
    (start State.reset.x 0 false [(0, 1#8), (255, 2#8)]).mem.wf = true ∧ 255 < 256 ∧ 256 ≤ 256 ∧ (254 ≠ 255 ∧ 254 < 256) := by decide
theorem witness_CanonicalMemoriesThatReadAlikeAreEqual :
    Memory.wf [(3, 1#8)] = true ∧ (Memory.write [] 3 1#8).wf = true ∧
      ∀ k, k < 256 → Memory.read [(3, 1#8)] k = (Memory.write [] 3 1#8).read k := ⟨rfl, rfl, fun _ _ => rfl⟩
theorem witness_RegisterAccessIsChecked : (7#8 : Byte).toNat < 8 ∧ 8 ≤ (8#8 : Byte).toNat ∧ ((6#8 : Byte) ≠ 7#8 ∧ (6#8 : Byte).toNat < 8) := by
  decide
/-- The index clauses of PRN, LDI, PUSH, POP, CALL, JMP. -/
theorem witness_one_register_operand : (7#8 : Byte).toNat < 8 ∧ 8 ≤ (8#8 : Byte).toNat ∧ 8 ≤ (255#8 : Byte).toNat := by decide
/-- The index clauses of ADD, MUL, CMP. -/
theorem witness_two_register_operands : ((7#8 : Byte).toNat < 8 ∧ (0#8 : Byte).toNat < 8) ∧ 8 ≤ (8#8 : Byte).toNat ∧
    ((7#8 : Byte).toNat < 8 ∧ 8 ≤ (8#8 : Byte).toNat) ∧ (6 < 8 ∧ 6 ≠ (7#8 : Byte).toNat) := by decide
theorem witness_PushDecrementsThenStores : (7#8 : Byte).toNat < 8 ∧ State.reset.mem.wf = true ∧ (6 < 8 ∧ 6 ≠ 7) := by decide
theorem witness_PopLoadsThenIncrements : ((6#8 : Byte).toNat < 8 ∧ (6#8 : Byte).toNat ≠ 7) ∧
    ((7#8 : Byte).toNat < 8 ∧ (7#8 : Byte).toNat = 7) ∧ (5 < 8 ∧ 5 ≠ 7 ∧ 5 ≠ (6#8 : Byte).toNat) := by decide
theorem witness_CallPushesTheReturnAddress : (7#8 : Byte).toNat < 8 ∧
    (start State.reset.x 253 false [(253, 0x50#8)]).mem.wf = true ∧ (start State.reset.x 253 false []).pc ≤ 253 := by decide
theorem witness_RetPopsIntoThePc : 6 < 8 ∧ 6 ≠ 7 := by decide
theorem witness_JeqJumpsWhenEqualIsSet :
    ((7#8 : Byte).toNat < 8 ∧ (start State.reset.x 0 true []).e = true) ∧ (start State.reset.x 0 false []).e = false ∧
      (8 ≤ (8#8 : Byte).toNat ∧ (start State.reset.x 0 true []).e = true) := by decide
theorem witness_JneJumpsWhenEqualIsClear :
    ((7#8 : Byte).toNat < 8 ∧ (start State.reset.x 0 false []).e = false) ∧ (start State.reset.x 0 true []).e = true ∧
      (8 ≤ (8#8 : Byte).toNat ∧ (start State.reset.x 0 false []).e = false) := by decide
theorem witness_RegisterSevenFollowsTheEffectOrder : (start #v[0, 0, 0, 0, 0, 0, 0, 0] 0 false [(255, 9#8)]).mem.wf = true := by decide
theorem witness_ArithmeticAgreesWithTheSignedReading : (0#8 : Byte).toNat < 8 ∧ (1#8 : Byte).toNat < 8 ∧
    3 ≤ ((#v[5, 253, 0, 0, 0, 0, 0, 244] : Vector Byte 8)[0]).toNat ∧
    ((#v[5, 253, 0, 0, 0, 0, 0, 244] : Vector Byte 8)[1]).toNat = (256 - 3) % 256 := by decide
theorem witness_FrameOfRegisterDestinations : (∃ t, exec (.ldi 7 1) State.reset = .next t) ∧ (∃ t, exec (.add 0 7) State.reset = .next t) ∧
    (∃ t, exec (.mul 7 0) State.reset = .next t) ∧ (6 < 8 ∧ 6 ≠ (7#8 : Byte).toNat) := ⟨⟨_, rfl⟩, ⟨_, rfl⟩, ⟨_, rfl⟩, by decide⟩
theorem witness_FrameOfFormsWithoutDestination : (∃ t, exec .hlt State.reset = .next t) ∧ (∃ t, exec (.prn 7) State.reset = .next t) ∧
    (∃ t, exec (.cmp 0 7) State.reset = .next t) ∧ (∃ t, exec (.jmp 7) State.reset = .next t) ∧
    (∃ t, exec (.jeq 200) State.reset = .next t) ∧ (∃ t, exec (.jne 7) State.reset = .next t) :=
  ⟨⟨_, rfl⟩, ⟨_, rfl⟩, ⟨_, rfl⟩, ⟨_, rfl⟩, ⟨_, rfl⟩, ⟨_, rfl⟩⟩
theorem witness_FrameOfStackStores : (∃ t, exec (.push 7) State.reset = .next t) ∧ (∃ t, exec (.call 7) State.reset = .next t) ∧
    242 ≠ pushAddr State.reset := ⟨⟨_, rfl⟩, ⟨_, rfl⟩, by decide⟩
theorem witness_FrameOfStackLoads : (∃ t, exec (.pop 6) State.reset = .next t) ∧ (∃ t, exec .ret State.reset = .next t) ∧
    (5 < 8 ∧ 5 ≠ 7 ∧ Instr.pop 6 ≠ .pop (BitVec.ofNat 8 5)) := ⟨⟨_, rfl⟩, ⟨_, rfl⟩, by decide⟩
theorem witness_ProgramCounterFollowsTheTable : (∃ t, exec (.ldi 7 1) State.reset = .next t) ∧
    ∃ t, stepWith defaultOpc (start State.reset.x 253 false [(253, 0x01#8)]) = .next t := ⟨⟨_, rfl⟩, _, rfl⟩
theorem witness_EqualIsWrittenOnlyByCmpReadOnlyByJeqJne : (∃ t, exec (.cmp 7 7) State.reset = .next t) ∧
    (∃ t, exec (.jne 7) State.reset = .next t) ∧ (∃ f, exec (.add 7 8) State.reset = .fault f) := ⟨⟨_, rfl⟩, ⟨_, rfl⟩, _, rfl⟩
theorem witness_OutputIsAppendedOnlyByPrn : (∃ t, exec (.prn 7) State.reset = .next t) ∧ (∃ t, exec (.ldi 7 1) State.reset = .next t) ∧
    (∃ c n o, exec (.prn 8) State.reset = .fault (.raised c n o)) := ⟨⟨_, rfl⟩, ⟨_, rfl⟩, _, _, _, rfl⟩
theorem witness_RegistersAreReadAndWrittenAsTabled : (∃ t, exec (.pop 6) State.reset = .next t) ∧
    (6 ∉ registersRead (.pop 6) State.reset ∧ 5 ∉ registersWritten (.pop 6)) ∧
    (∃ f, exec (.pop 8) State.reset = .fault f) ∧ 0 ∉ registersRead (.pop 8) State.reset := ⟨⟨_, rfl⟩, by decide, ⟨_, rfl⟩, by decide⟩
theorem witness_RunStateTransitions : (∃ t, stepWith defaultOpc (start State.reset.x 253 false [(253, 0x01#8)]) = .next t) ∧
    (∃ c n o, stepWith defaultOpc State.reset = .fault (.raised c n o)) ∧
    ({ State.reset with run := .faulted .unknownOpcode 0 } : State).run ≠ .running ∧ (∃ t, bootImage [1#8] = .ok t) :=
  ⟨⟨_, rfl⟩, ⟨_, _, _, rfl⟩, by decide, _, rfl⟩
theorem witness_WellFormedInstructionsComplete : WellFormed (.add 7 7) ∧ ∃ f, exec (.add 7 8) State.reset = .fault f := ⟨rfl, _, rfl⟩
theorem witness_StepRunsTheDecodedInstruction : let s := start State.reset.x 253 false [(253, 0x82#8), (254, 0x01#8), (255, 0x4D#8)]
    s.run = .running ∧ s.pc ≤ 253 ∧
      decodeFetched defaultOpc (s.mem.read s.pc) (s.mem.read (s.pc + 1)) (s.mem.read (s.pc + 2)) = .ok (.ldi 1 77) := by decide
theorem witness_FetchFaultsAtTheTopOfMemory : ∀ pc ∈ [254, 255, 256], (start State.reset.x pc false []).run = .running ∧
    254 ≤ (start State.reset.x pc false []).pc ∧ (start State.reset.x pc false []).pc ≤ 256 := by decide
theorem witness_default_admissible : Admissible defaultOpc :=
  ⟨fun m n => by cases m <;> cases n <;> decide, fun m => by cases m <;> decide⟩
theorem witness_UnknownOpcodesAreFatal : (start State.reset.x 253 false []).run = .running ∧
    (start State.reset.x 253 false []).pc ≤ 253 ∧ ∀ m, (start State.reset.x 253 false []).mem.read 253 ≠ defaultOpc m :=
  ⟨rfl, by decide, fun m => by cases m <;> decide⟩
theorem witness_StepFaultsExactlyAsTabled : (start State.reset.x 256 false []).run = .running ∧
    (start State.reset.x 256 false []).pc ≤ 256 ∧ faultTable defaultOpc (start State.reset.x 253 false [(253, 0x01#8)]) = none := by decide
theorem witness_FaultsCarryTheOutputAndNeverUnsupported : ∃ c n o, stepWith defaultOpc State.reset = .fault (.raised c n o) := ⟨_, _, _, rfl⟩
theorem witness_StepDependsOnlyOnItsCells_next :
    (start State.reset.x 253 false [(253, 0x11#8), (254, 0x07#8)]).mem.wf = true ∧
    nextInstr defaultOpc (start State.reset.x 253 false [(253, 0x11#8), (254, 0x07#8)]) = .ok .ret ∧
    254 ∉ cellsUsed .ret (start State.reset.x 253 false [(253, 0x11#8), (254, 0x07#8)]) ∧
    ∃ t, stepWith defaultOpc (start State.reset.x 253 false [(253, 0x11#8), (254, 0x07#8)]) = .next t := ⟨rfl, rfl, by decide, _, rfl⟩
theorem witness_StepDependsOnlyOnItsCells_fault :
    (start State.reset.x 0 false [(0, 0x47#8), (1, 0x08#8)]).mem.wf = true ∧
    nextInstr defaultOpc (start State.reset.x 0 false [(0, 0x47#8), (1, 0x08#8)]) = .ok (.prn 8) ∧
    2 ∉ cellsUsed (.prn 8) (start State.reset.x 0 false [(0, 0x47#8), (1, 0x08#8)]) ∧
    ∃ f, stepWith defaultOpc (start State.reset.x 0 false [(0, 0x47#8), (1, 0x08#8)]) = .fault f := ⟨rfl, rfl, by decide, _, rfl⟩
/-- K11: PUSH R0 at 6 with `SP = 9` stores HLT at 8, where the next step fetches. -/
def pushOntoNext : State := start #v[1, 0, 0, 0, 0, 0, 0, 9] 6 false [(6, 0x45#8)]
/-- CALL R7 at 78 stores its return address, 80 = 0x50, at 243 and jumps there. -/
def callOntoNext : State := start State.reset.x 78 false [(78, 0x50#8), (79, 0x07#8)]
theorem witness_StoredByteIsTheNextOpcode_push : pushOntoNext.mem.wf = true ∧ pushOntoNext.run = .running ∧ pushOntoNext.pc ≤ 253 ∧
    (after (exec (.push 0) pushOntoNext)).map (fun t => (t.pc, t.x[0]?)) = some (pushAddr pushOntoNext, some (defaultOpc .hlt)) ∧
    pushAddr pushOntoNext ≤ 253 := by decide
theorem witness_StoredByteIsTheNextOpcode_call : callOntoNext.mem.wf = true ∧ callOntoNext.run = .running ∧ callOntoNext.pc ≤ 253 ∧
    (after (exec (.call 7) callOntoNext)).map (fun t => t.pc) = some (pushAddr callOntoNext) ∧
    (defaultOpc .call).toNat = callOntoNext.pc + 2 ∧ pushAddr callOntoNext ≤ 253 := by decide
theorem witness_JumpToItselfNeverEnds : let s := start #v[3, 0, 0, 0, 0, 0, 0, 244] 3 false [(3, 0x54#8)]
    s.run = .running ∧ s.pc ≤ 253 ∧ s.mem.read s.pc = defaultOpc .jmp ∧ s.mem.read (s.pc + 1) = 0#8 ∧ (s.x[0]).toNat = s.pc := by decide
theorem witness_PushedRegistersComeBackInReverseOrder : State.reset.mem.wf = true ∧ ([0#8, 7#8] : List Byte).length ≤ 256 ∧
    (∀ r ∈ ([0#8, 7#8] : List Byte), r.toNat < 8) ∧ ((6#8 : Byte).toNat < 8 ∧ (6#8 : Byte).toNat ≠ 7) := by decide
theorem witness_RetResumesAfterTheCall : (start State.reset.x 253 false []).mem.wf = true ∧ (start State.reset.x 253 false []).pc ≤ 253 ∧
    ∃ t, exec (.call 0) (start State.reset.x 253 false []) = .next t ∧ ∃ u : State, u.x[7] = t.x[7] ∧
      u.mem.read (t.x[7]).toNat = t.mem.read (t.x[7]).toNat := ⟨rfl, by decide, _, rfl, _, rfl, rfl⟩
theorem witness_DecodeOfEncodeIsTheInstruction : ∃ tail, [0x45#8, 0x07#8, 0xFF#8] = encodeWith defaultOpc (.push 7) ++ tail := ⟨[0xFF#8], rfl⟩
theorem witness_EncodeOfDecodeIsTheBytes : decodeBytes defaultOpc [0x45#8, 0x07#8, 0xFF#8] = .ok (.push 7, [0xFF#8]) := by decide
theorem witness_TheWholeOpcodeByteIsMatched : 0x56#8 = defaultOpc .jne ∧ ∀ m, 0x57#8 ≠ defaultOpc m := ⟨rfl, fun m => by cases m <;> decide⟩
theorem witness_HighOpcodeBitsCountTheOperands : encodeWith defaultOpc (.cmp 0 1) = 0xA7#8 :: [0x00#8, 0x01#8] := by decide
/-- R98's own words: bit 5 set in ADD, MUL, CMP, bit 4 set in CALL, RET, JMP, JEQ, JNE, neither in the others. -/
theorem test_layout_bits : (allMnemonics.filter (fun m => (defaultOpc m).getLsbD 5)) = [.add, .mul, .cmp] ∧
    (allMnemonics.filter (fun m => (defaultOpc m).getLsbD 4)) = [.call, .ret, .jmp, .jeq, .jne] := by decide
/-- The published layout's fields of ADD, 10 1 0 0000, and of RET, 00 0 1 0001. -/
theorem test_opcode_fields : opcodeFields 0b10100000#8 = (2, true, false, 0) ∧ opcodeFields 0b00010001#8 = (0, false, true, 1) := by decide
/-- An assignment with every bit of every default byte inverted: distinct, and against R81. -/
theorem witness_NoFieldOfTheOpcodeByteIsDecoded : (∀ m n, ~~~(defaultOpc m) = ~~~(defaultOpc n) → m = n) ∧
    (start State.reset.x 253 false [(253, 0x82#8), (254, 0x01#8), (255, 0x4D#8)]).mem.wf = true ∧
    nextInstr defaultOpc (start State.reset.x 253 false [(253, 0x82#8), (254, 0x01#8), (255, 0x4D#8)]) = .ok (.ldi 1 77) :=
  ⟨fun m n => by cases m <;> cases n <;> decide, rfl, rfl⟩
theorem witness_PlacedWordRunsNext : State.reset.mem.wf = true ∧ decodeTableWord 24 0x4D0182 = some (.ldi 1 77) ∧
    State.reset.run = .running ∧ State.reset.pc ≤ 253 := by decide
theorem witness_StepKeepsTheInvariant : (start State.reset.x 253 false [(253, 0x01#8)]).Inv ∧
    ∃ t, step (start State.reset.x 253 false [(253, 0x01#8)]) = .next t := ⟨⟨rfl, by decide, .inl rfl⟩, _, rfl⟩
theorem witness_BootMeetsTheInvariant : ∃ t, bootImage [0x01#8, 0x00#8, 0xFF#8] = .ok t := ⟨_, rfl⟩

end Sys2Proof.Tests
end

section
/-! # Memory and the loader -/

namespace Sys2Proof.Machine

/-! ## Memory -/

/-- A read after a write to a canonical memory, any two addresses (R52). -/
theorem Memory.read_write {m : Memory} (hm : m.wf = true) (addr k : Nat) (v : Byte) :
    (m.write addr v).read k = if k = addr then v else m.read k := by
  by_cases h : k = addr
  · rw [if_pos h, h]
    exact Memory.read_write_eq addr v hm
  · rw [if_neg h]
    exact Memory.read_write_ne v h m

/-- A canonical memory respects its first cell's address as a lower bound. -/
theorem Memory.wfFrom_head {lo k : Nat} {w : Byte} {m : Memory} (h : Memory.wfFrom lo ((k, w) :: m) = true) :
    Memory.wfFrom k ((k, w) :: m) = true := by
  rw [Memory.wfFrom_cons] at h ⊢
  exact ⟨le_rfl, h.2⟩

@[simp] theorem Memory.read_cons_self (k : Nat) (w : Byte) (m : Memory) : Memory.read ((k, w) :: m) k = w := if_pos rfl

theorem Memory.read_cons_ne {k j : Nat} (h : k ≠ j) (w : Byte) (m : Memory) :
    Memory.read ((k, w) :: m) j = Memory.read m j := if_neg h

/-- The first cell of a canonical memory does not read as an unlisted one. -/
theorem Memory.read_head_ne {lo k : Nat} {w : Byte} {m : Memory} (h : Memory.wfFrom lo ((k, w) :: m) = true) :
    Memory.read ((k, w) :: m) k ≠ Memory.unlisted := by
  rw [Memory.wfFrom_cons] at h
  simpa using h.2.2.1

/-- Of two canonical memories that read alike, neither starts below the other: its first cell would read as
unlisted in the other. -/
theorem Memory.head_le_of_read_eq {lo lo' k k' : Nat} {w w' : Byte} {m m' : Memory}
    (hm : Memory.wfFrom lo ((k, w) :: m) = true) (hm' : Memory.wfFrom lo' ((k', w') :: m') = true)
    (h : ∀ j, j < 256 → Memory.read ((k, w) :: m) j = Memory.read ((k', w') :: m') j) : k' ≤ k := by
  by_contra hlt
  have hk : k < 256 := ((Memory.wfFrom_cons ..).mp hm).2.1
  exact Memory.read_head_ne hm ((h k hk).trans (Memory.read_below (not_le.mp hlt) (Memory.wfFrom_head hm')))

/-- Extensionality of canonical memories, from any two lower bounds (R38). -/
theorem Memory.ext_of_wfFrom : ∀ {m m' : Memory} {lo lo' : Nat}, Memory.wfFrom lo m = true → Memory.wfFrom lo' m' = true →
    (∀ j, j < 256 → m.read j = m'.read j) → m = m'
  | [], [], _, _, _, _, _ => rfl
  | [], (k, w) :: m, _, _, _, hm, h =>
    absurd (h k ((Memory.wfFrom_cons ..).mp hm).2.1).symm (Memory.read_head_ne hm)
  | (k, w) :: m, [], _, _, hm, _, h =>
    absurd (h k ((Memory.wfFrom_cons ..).mp hm).2.1) (Memory.read_head_ne hm)
  | (k, w) :: m, (k', w') :: m', _, _, hm, hm', h => by
    have hk : k = k' := le_antisymm
      (Memory.head_le_of_read_eq hm' hm fun j hj => (h j hj).symm) (Memory.head_le_of_read_eq hm hm' h)
    subst hk
    obtain ⟨-, hk, -, htail⟩ := (Memory.wfFrom_cons ..).mp hm
    obtain ⟨-, -, -, htail'⟩ := (Memory.wfFrom_cons ..).mp hm'
    have hw : w = w' := by simpa using h k hk
    have htails : m = m' := Memory.ext_of_wfFrom htail htail' fun j hj => by
      by_cases hj' : k = j
      · subst hj'
        rw [Memory.read_below (Nat.lt_succ_self k) htail, Memory.read_below (Nat.lt_succ_self k) htail']
      · simpa [Memory.read_cons_ne hj'] using h j hj
    rw [hw, htails]

/-- Settles O6: canonical lists are equal cell by cell, from the first cell on. -/
theorem canonicalMemoriesThatReadAlikeAreEqual : Obligations.CanonicalMemoriesThatReadAlikeAreEqual :=
  fun _ _ hm hm' h => Memory.ext_of_wfFrom hm hm' h

/-! ## The loader -/

/-- A load that fits in memory succeeds (R247). -/
theorem exists_loadBytes_ok : ∀ (vs : List Byte) (addr : Nat) (s : State), addr + vs.length ≤ 256 →
    ∃ t, loadBytes vs addr s = .ok t
  | [], addr, s, _ => ⟨s, loadBytes_nil addr s⟩
  | v :: vs, addr, s, h => by
    rw [List.length_cons] at h
    rw [loadBytes_cons (by omega)]
    exact exists_loadBytes_ok vs (addr + 1) _ (by omega)

/-- The loader changes no cell below the address it starts at. -/
theorem loadBytes_read_below : ∀ {vs : List Byte} {addr k : Nat} {s t : State}, loadBytes vs addr s = .ok t → k < addr →
    t.mem.read k = s.mem.read k
  | [], addr, k, s, t, h, _ => by
    simp only [loadBytes_nil, Except.ok.injEq] at h
    rw [h]
  | v :: vs, addr, k, s, t, h, hk => by
    by_cases ha : addr < 256
    · rw [loadBytes_cons ha] at h
      rw [loadBytes_read_below h (Nat.lt_succ_of_lt hk), Memory.read_write_ne v hk.ne]
    · simp [loadBytes_cons_error (Nat.not_lt.mp ha)] at h

/-- The loader places byte `k` of the sequence `k` cells after its start, and leaves the cells after the sequence
alone (R40). -/
theorem loadBytes_read : ∀ {vs : List Byte} {addr : Nat} {s t : State}, s.mem.wf = true → loadBytes vs addr s = .ok t →
    ∀ k, t.mem.read (addr + k) = vs[k]?.getD (s.mem.read (addr + k))
  | [], addr, s, t, _, h, k => by
    simp only [loadBytes_nil, Except.ok.injEq] at h
    simp [h]
  | v :: vs, addr, s, t, hm, h, k => by
    by_cases ha : addr < 256
    · rw [loadBytes_cons ha] at h
      cases k with
      | zero => simp [loadBytes_read_below h (Nat.lt_succ_self addr), Memory.read_write_eq addr v hm]
      | succ k =>
        have hread := loadBytes_read (Memory.wf_write v ha hm) h k
        rw [Memory.read_write_ne v (by omega), show addr + 1 + k = addr + (k + 1) by omega] at hread
        simpa using hread
    · simp [loadBytes_cons_error (Nat.not_lt.mp ha)] at h

section Boot
variable {image : List Byte} {t : State}

/-- After a boot everything but memory is as reset leaves it, and memory is canonical (R241, R247). -/
theorem bootImage_ok (h : bootImage image = .ok t) : t.mem.wf = true ∧ t.x = State.reset.x ∧ t.pc = State.reset.pc ∧
    t.e = State.reset.e ∧ t.run = State.reset.run ∧ t.out = State.reset.out :=
  loadBytes_ok rfl h

/-- After a boot each cell holds the image's byte, or 0 beyond the image (R40). -/
theorem bootImage_read (h : bootImage image = .ok t) (k : Nat) : t.mem.read k = image[k]?.getD 0#8 := by
  simpa [Config.loadBase, State.reset, Memory.unlisted] using loadBytes_read rfl h k

end Boot

/-- Settles O1. -/
theorem everyBootStartsAtZero : Obligations.EveryBootStartsAtZero := by
  intro image t h
  obtain ⟨-, hx, hpc, -, hrun, -⟩ := bootImage_ok h
  refine ⟨hpc, by rw [hx]; rfl, hrun, fun v hv => ?_⟩
  rw [bootImage_read h, ← List.head?_eq_getElem?, hv, Option.getD_some]

/-- Settles O2. -/
theorem bootPlacesImageThenZeros : Obligations.BootPlacesImageThenZeros := by
  intro image hlen
  obtain ⟨t, ht⟩ := exists_loadBytes_ok image Config.loadBase State.reset (by simpa using hlen)
  exact ⟨t, ht, fun k _ => bootImage_read ht k⟩

/-- Registers 0 to 6 are 0 after reset (D5). -/
theorem reset_x : ∀ r, ∀ h : r < 8, r ≠ 7 → State.reset.x[r] = 0#8 := by decide

/-- Settles O4. -/
theorem bootClearsRegistersFlagAndOutput : Obligations.BootClearsRegistersFlagAndOutput := by
  intro image t h
  obtain ⟨-, hx, -, he, -, hout⟩ := bootImage_ok h
  exact ⟨fun r hr h7 => by simpa only [hx] using reset_x r hr h7, he, hout⟩

/-! ## The invariant at the start of a run -/

/-- Settles O51. -/
theorem resetMeetsTheInvariant : Obligations.ResetMeetsTheInvariant :=
  ⟨rfl, Nat.zero_le _, .inl rfl⟩

/-- Settles O52: the loader keeps the canonical form and changes only memory. -/
theorem bootMeetsTheInvariant : Obligations.BootMeetsTheInvariant := by
  intro image t h
  obtain ⟨hm, -, hpc, -, hrun, -⟩ := bootImage_ok h
  exact ⟨hm, by simp [hpc, State.reset], .inl hrun⟩

/-! ## Registers -/

/-- Settles O7: by the cases of the index check. -/
theorem registerAccessIsChecked : Obligations.RegisterAccessIsChecked := by
  intro i v s
  refine ⟨fun hi => ⟨_, regWrite_ok hi, ?_, fun j hji hj => ⟨_, regRead_ok hj, ?_⟩, rfl, rfl, rfl, rfl, rfl⟩,
    fun hi => ⟨regRead_error hi, regWrite_error hi⟩⟩
  · simp [regRead_ok hi]
  · have hne : i.toNat ≠ j.toNat := fun h => hji (BitVec.eq_of_toNat_eq h).symm
    simp [regRead_ok hj, Vector.getElem_set_ne, hne]

end Sys2Proof.Machine
end

section
/-! # What each instruction does, field by field

The meanings of `Machine/` are written as sequences of checked accesses. Here the same is said once as a table:
which register operands an instruction accesses, and, when all of them name registers, the value of each field of the
next state. `exec_eq` ties the table to `exec`; the rules over all instructions are then facts about single fields. -/

namespace Sys2Proof.Machine

/-! ## The table -/

/-- The value of the register an operand names; used only where the operand is valid. -/
def regValue (s : State) (a : Byte) : Byte := s.x[a.toNat]?.getD 0#8

/-- The register operands an instruction accesses: all of them, but none where JEQ or JNE is not taken (D7). -/
def accessed (i : Instr) (s : State) : List Byte :=
  match i with
  | .jeq a => if s.e then [a] else []
  | .jne a => if s.e then [] else [a]
  | i => i.registerOperands

/-- The operand an instruction faults on: the first it accesses that names no register (R23, R208). -/
def faultingOperand (i : Instr) (s : State) : Option Byte := (accessed i s).find? (fun r => decide (8 ≤ r.toNat))

/-- The registers after an instruction. -/
def nextRegs (i : Instr) (s : State) : Vector Byte 8 :=
  match i with
  | .ldi a imm => s.x.setIfInBounds a.toNat imm
  | .add a b => s.x.setIfInBounds a.toNat (addMod (regValue s a) (regValue s b))
  | .mul a b => s.x.setIfInBounds a.toNat (mulMod (regValue s a) (regValue s b))
  | .push _ | .call _ => (spDecrement s).x
  | .pop a => (spIncrement { s with x := s.x.setIfInBounds a.toNat (s.mem.read (popAddr s)) }).x
  | .ret => (spIncrement s).x
  | .hlt | .prn _ | .cmp _ _ | .jmp _ | .jeq _ | .jne _ => s.x

/-- The program counter after an instruction (R27). -/
def nextPc (i : Instr) (s : State) : Nat :=
  match i with
  | .hlt => s.pc + 1
  | .prn _ | .push _ | .pop _ => s.pc + 2
  | .ldi _ _ | .add _ _ | .mul _ _ | .cmp _ _ => s.pc + 3
  | .call a => (regValue (spDecrement s) a).toNat
  | .ret => (s.mem.read (popAddr s)).toNat
  | .jmp a => (regValue s a).toNat
  | .jeq a => if s.e then (regValue s a).toNat else s.pc + 2
  | .jne a => if s.e then s.pc + 2 else (regValue s a).toNat

/-- The flag after an instruction (R31). -/
def nextFlag (i : Instr) (s : State) : Bool :=
  match i with
  | .cmp a b => equalOf (regValue s a) (regValue s b)
  | _ => s.e

/-- The run state after an instruction (R34). -/
def nextRun (i : Instr) (s : State) : RunState :=
  match i with
  | .hlt => .halted
  | _ => s.run

/-- The byte an instruction stores at the decremented stack pointer, if it stores one (R171, R181). -/
def storedByte (i : Instr) (s : State) : Option Byte :=
  match i with
  | .push a => some (regValue (spDecrement s) a)
  | .call _ => some (returnAddr s)
  | _ => none

/-- Memory after an instruction. -/
def nextMem (i : Instr) (s : State) : Memory := (storedByte i s).elim s.mem (s.mem.write (pushAddr s))

/-- The byte an instruction appends to the output, if it appends one (R36). -/
def emitted (i : Instr) (s : State) : Option Byte :=
  match i with
  | .prn a => some (regValue s a)
  | _ => none

/-- The output after an instruction. -/
def nextOut (i : Instr) (s : State) : List Byte := (emitted i s).elim s.out (fun v => s.out ++ [v])

/-- The state after an instruction whose accesses all succeed. -/
def nextState (i : Instr) (s : State) : State where
  x := nextRegs i s
  pc := nextPc i s
  e := nextFlag i s
  run := nextRun i s
  mem := nextMem i s
  out := nextOut i s

/-- What an instruction answers, by the table. -/
def outcome (i : Instr) (s : State) : Host.Outcome State Fault Refusal :=
  (faultingOperand i s).elim (.next (nextState i s)) (fun r => .fault (noRegister r s))

/-! ## The table is the machine's -/

section Table
variable {i : Instr} {a b : Byte} {s t : State} {f : Fault}

theorem regValue_of_lt (h : a.toNat < 8) : regValue s a = s.x[a.toNat] := by simp [regValue, h]

/-- A checked write to a register that exists, in the table's spelling. -/
theorem set_eq_setIfInBounds {k : Nat} (h : k < 8) (x : Vector Byte 8) (v : Byte) : x.set k v h = x.setIfInBounds k v :=
  Vector.ext fun j hj => by simp [Vector.getElem_set, Vector.getElem_setIfInBounds]

theorem outcome_of_none (h : faultingOperand i s = none) : outcome i s = .next (nextState i s) := by
  rw [outcome, h, Option.elim_none]

theorem outcome_of_some (h : faultingOperand i s = some a) : outcome i s = .fault (noRegister a s) := by
  rw [outcome, h, Option.elim_some]

/-- An instruction that accesses no operand agrees with the table when it answers the table's next state. -/
theorem exec_eq_of_accessed_nil (h : accessed i s = []) (hnext : exec i s = .next (nextState i s)) :
    exec i s = outcome i s := by
  rw [hnext, outcome_of_none (by simp [faultingOperand, h])]

/-- An instruction that accesses one operand agrees with the table when it does in both cases of the check. -/
theorem exec_eq_of_accessed_one (h : accessed i s = [a]) (hnext : a.toNat < 8 → exec i s = .next (nextState i s))
    (hfault : 8 ≤ a.toNat → exec i s = .fault (noRegister a s)) : exec i s = outcome i s := by
  by_cases ha : a.toNat < 8
  · rw [hnext ha, outcome_of_none (by simp [faultingOperand, h, ha])]
  · have ha' := Nat.not_lt.mp ha
    rw [hfault ha', outcome_of_some (a := a) (by simp [faultingOperand, h, ha'])]

/-- An ALU instruction agrees with the table when its next state does: both check operand A, then operand B. -/
theorem exec_eq_of_alu (op : AluOp) (h : accessed i s = [a, b]) (hexec : exec i s = execAlu op a b s)
    (hnext : ∀ ha : a.toNat < 8,
      nextState i s = pcAdvance 3 (aluResult op a.toNat ha (regValue s a) (regValue s b) s)) :
    exec i s = outcome i s := by
  rw [hexec]
  by_cases ha : a.toNat < 8
  · by_cases hb : b.toNat < 8
    · rw [outcome_of_none (by simp [faultingOperand, h, ha, hb])]
      exact (execAlu_next op).mpr ⟨ha, hb, by rw [hnext ha, regValue_of_lt ha, regValue_of_lt hb]⟩
    · have hb' := Nat.not_lt.mp hb
      rw [outcome_of_some (a := b) (by simp [faultingOperand, h, ha, hb'])]
      exact (execAlu_fault op).mpr (.inr ⟨ha, hb', rfl⟩)
  · have ha' := Nat.not_lt.mp ha
    rw [outcome_of_some (a := a) (by simp [faultingOperand, h, ha'])]
    exact (execAlu_fault op).mpr (.inl ⟨ha', rfl⟩)

/-- A conditional jump agrees with the table when its operand and its next state do, taken and not taken. -/
theorem exec_eq_of_branch (c : Bool) (h : accessed i s = if c then [a] else [])
    (hexec : exec i s = finish (branchIf c a s))
    (hnext : nextState i s = if c then pcSet (regValue s a) s else pcAdvance 2 s) : exec i s = outcome i s := by
  cases c with
  | false =>
    refine exec_eq_of_accessed_nil h ?_
    rw [hexec, hnext]
    rfl
  | true =>
    refine exec_eq_of_accessed_one h (fun ha => ?_) (fun ha => ?_)
    · rw [hexec, hnext, branchIf_true_ok ha, regValue_of_lt ha]
      rfl
    · rw [hexec, branchIf_true_error ha, finish_error]

/-- The table is the machine's: every instruction, from every state, answers what the table says. -/
theorem exec_eq (i : Instr) (s : State) : exec i s = outcome i s := by
  cases i with
  | hlt => exact exec_eq_of_accessed_nil rfl (execHlt_next.mpr rfl)
  | ret => exact exec_eq_of_accessed_nil rfl (execRet_next.mpr rfl)
  | ldi a imm =>
    refine exec_eq_of_accessed_one rfl (fun ha => execLdi_next.mpr ⟨ha, ?_⟩) (fun ha => execLdi_fault.mpr ⟨ha, rfl⟩)
    rw [set_eq_setIfInBounds ha]
    rfl
  | prn a =>
    refine exec_eq_of_accessed_one rfl (fun ha => execPrn_next.mpr ⟨ha, ?_⟩) (fun ha => execPrn_fault.mpr ⟨ha, rfl⟩)
    rw [← regValue_of_lt ha]
    rfl
  | push a =>
    refine exec_eq_of_accessed_one rfl (fun ha => execPush_next.mpr ⟨ha, ?_⟩) (fun ha => execPush_fault.mpr ⟨ha, rfl⟩)
    rw [← regValue_of_lt ha]
    rfl
  | pop a =>
    refine exec_eq_of_accessed_one rfl (fun ha => execPop_next.mpr ⟨ha, ?_⟩) (fun ha => execPop_fault.mpr ⟨ha, rfl⟩)
    rw [set_eq_setIfInBounds ha]
    rfl
  | call a =>
    refine exec_eq_of_accessed_one rfl (fun ha => execCall_next.mpr ⟨ha, ?_⟩) (fun ha => execCall_fault.mpr ⟨ha, rfl⟩)
    rw [← regValue_of_lt ha]
    rfl
  | jmp a =>
    refine exec_eq_of_accessed_one rfl (fun ha => execJmp_next.mpr ⟨ha, ?_⟩) (fun ha => execJmp_fault.mpr ⟨ha, rfl⟩)
    rw [← regValue_of_lt ha]
    rfl
  | add a b => exact exec_eq_of_alu .add rfl rfl fun ha => by rw [aluResult, set_eq_setIfInBounds ha]; rfl
  | mul a b => exact exec_eq_of_alu .mul rfl rfl fun ha => by rw [aluResult, set_eq_setIfInBounds ha]; rfl
  | cmp a b => exact exec_eq_of_alu .cmp rfl rfl fun _ => rfl
  | jeq a =>
    obtain ⟨x, pc, e, run, mem, out⟩ := s
    cases e with
    | false => exact exec_eq_of_branch (a := a) false rfl rfl rfl
    | true => exact exec_eq_of_branch true rfl rfl rfl
  | jne a =>
    obtain ⟨x, pc, e, run, mem, out⟩ := s
    cases e with
    | false => exact exec_eq_of_branch true rfl rfl rfl
    | true => exact exec_eq_of_branch (a := a) false rfl rfl rfl

/-- An instruction answers a next state exactly when every operand it accesses names a register. -/
theorem exec_next : exec i s = .next t ↔ faultingOperand i s = none ∧ nextState i s = t := by
  rw [exec_eq]
  cases h : faultingOperand i s with
  | none => simp [outcome_of_none h]
  | some r => simp [outcome_of_some h]

/-- An instruction faults exactly when an operand it accesses names no register, and on the first such. -/
theorem exec_fault : exec i s = .fault f ↔ ∃ r, faultingOperand i s = some r ∧ noRegister r s = f := by
  rw [exec_eq]
  cases h : faultingOperand i s with
  | none => simp [outcome_of_none h]
  | some r => simp [outcome_of_some h]

theorem faultingOperand_eq_none : faultingOperand i s = none ↔ ∀ r ∈ accessed i s, r.toNat < 8 := by
  simp [faultingOperand]

theorem mem_accessed_of_faultingOperand (h : faultingOperand i s = some a) : a ∈ accessed i s ∧ 8 ≤ a.toNat :=
  ⟨List.mem_of_find?_eq_some h, by simpa using List.find?_some h⟩

/-- What an instruction accesses is among its register operands. -/
theorem accessed_subset (i : Instr) (s : State) : accessed i s ⊆ i.registerOperands := by
  cases i with
  | jeq a => cases h : s.e <;> simp [accessed, h, Instr.registerOperands]
  | jne a => cases h : s.e <;> simp [accessed, h, Instr.registerOperands]
  | _ => exact List.Subset.refl _

end Table

/-! ## One field at a time -/

section Fields
variable {i : Instr} {s : State}

/-- Only HLT writes the run state (R34). -/
theorem nextRun_of_ne_hlt (h : i ≠ .hlt) : nextRun i s = s.run := by
  cases i with
  | hlt => exact absurd rfl h
  | _ => rfl

/-- Only CMP writes the flag (R31). -/
theorem nextFlag_of_ne_cmp (h : ∀ a b, i ≠ .cmp a b) : nextFlag i s = s.e := by
  cases i with
  | cmp a b => exact absurd rfl (h a b)
  | _ => rfl

/-- Only PRN writes the output (R36). -/
theorem nextOut_of_ne_prn (h : ∀ a, i ≠ .prn a) : nextOut i s = s.out := by
  cases i with
  | prn a => exact absurd rfl (h a)
  | _ => rfl

/-- The output grows at its end (R36). -/
theorem nextOut_eq_append (i : Instr) (s : State) : nextOut i s = s.out ++ (emitted i s).toList := by
  unfold nextOut
  cases emitted i s <;> simp

/-- A register outside the column "writes" of R21's table keeps its value. -/
theorem nextRegs_of_not_written {r : Nat} (h : r < 8) (hr : r ∉ registersWritten i) : (nextRegs i s)[r] = s.x[r] := by
  cases i with
  | ldi a _ | add a _ | mul a _ => exact Vector.getElem_setIfInBounds_ne h (Ne.symm (by simpa [registersWritten] using hr))
  | push _ | call _ | ret => exact Vector.getElem_set_ne (by decide) h (Ne.symm (by simpa [registersWritten] using hr))
  | pop a =>
    obtain ⟨ha, h7⟩ : r ≠ a.toNat ∧ r ≠ 7 := by simpa [registersWritten] using hr
    simp [nextRegs, Vector.getElem_set_ne, Vector.getElem_setIfInBounds_ne, ha.symm, h7.symm]
  | hlt | prn _ | cmp _ _ | jmp _ | jeq _ | jne _ => rfl

/-- What an instruction leaves of memory is canonical when it was (R53). -/
theorem wf_nextMem (i : Instr) (hm : s.mem.wf = true) : (nextMem i s).wf = true := by
  unfold nextMem
  cases storedByte i s with
  | none => exact hm
  | some v => exact Memory.wf_write v pushAddr_lt hm

/-- An instruction fetched at 253 or below leaves `pc` in 0..256 (R26): it advances by 3 at most, or takes a byte. -/
theorem nextPc_le (i : Instr) (hpc : s.pc ≤ 253) : nextPc i s ≤ 256 := by
  have hbyte : ∀ v : Byte, v.toNat ≤ 256 := fun v => v.isLt.le
  cases i with
  | call _ | ret | jmp _ => exact hbyte _
  | jeq a | jne a =>
    have htarget := hbyte (regValue s a)
    simp only [nextPc]
    split <;> omega
  | _ => simp only [nextPc]; omega

/-- The run state after an instruction of a running machine, with `pc` just after a HLT (R34, R130). -/
theorem nextRun_cases (i : Instr) (hrun : s.run = .running) :
    nextRun i s = .running ∨ (i = .hlt ∧ nextRun i s = .halted) := by
  cases i with
  | hlt => exact .inr ⟨rfl, rfl⟩
  | _ => exact .inl hrun

/-- The state after an instruction that a running machine fetched meets the invariant. -/
theorem inv_nextState (i : Instr) (hm : s.mem.wf = true) (hrun : s.run = .running) (hpc : s.pc ≤ 253) :
    (nextState i s).Inv where
  memory := wf_nextMem i hm
  pcRange := nextPc_le i hpc
  runState := (nextRun_cases i hrun).imp_right fun ⟨hi, hhalt⟩ => by
    subst hi
    exact ⟨hhalt, Nat.le_add_left 1 s.pc, Nat.succ_le_succ hpc⟩

end Fields

/-- A step that answers a next state, under any assignment, keeps the invariant: it ran a fetched instruction. -/
theorem inv_stepWith {opc : Assignment} {s t : State} (hs : s.Inv) (h : stepWith opc s = .next t) : t.Inv := by
  obtain ⟨i, hi, hexec⟩ := stepWith_next.mp h
  obtain ⟨hrun, hpc, -⟩ := nextInstr_eq_ok.mp hi
  obtain ⟨-, rfl⟩ := exec_next.mp hexec
  exact inv_nextState i hs.memory hrun hpc

/-- Settles O50. -/
theorem stepKeepsTheInvariant : Obligations.StepKeepsTheInvariant :=
  ⟨fun _ _ => inv_stepWith, fun _ _ _ => inv_stepWith⟩

/-! ## Frames -/

/-- Settles O23. -/
theorem frameOfRegisterDestinations : Obligations.FrameOfRegisterDestinations := by
  intro i a s t hi h
  obtain ⟨-, rfl⟩ := exec_next.mp h
  have hwritten : registersWritten i = [a.toNat] := by
    obtain ⟨_, rfl⟩ | ⟨_, rfl⟩ | ⟨_, rfl⟩ := hi <;> rfl
  refine ⟨fun r hr hne => nextRegs_of_not_written hr (by simpa [hwritten] using hne), ?_⟩
  obtain ⟨_, rfl⟩ | ⟨_, rfl⟩ | ⟨_, rfl⟩ := hi <;> exact ⟨rfl, rfl, rfl, fun _ => rfl⟩

/-- Settles O24. -/
theorem frameOfFormsWithoutDestination : Obligations.FrameOfFormsWithoutDestination := by
  intro i s t hi h
  obtain ⟨-, rfl⟩ := exec_next.mp h
  have hkept : nextRegs i s = s.x ∧ nextMem i s = s.mem := by
    obtain rfl | ⟨_, rfl⟩ | ⟨_, _, rfl⟩ | ⟨_, rfl⟩ | ⟨_, rfl⟩ | ⟨_, rfl⟩ := hi <;> exact ⟨rfl, rfl⟩
  exact ⟨hkept.1, fun k => congrArg (Memory.read · k) hkept.2, nextFlag_of_ne_cmp, nextRun_of_ne_hlt, nextOut_of_ne_prn⟩

end Sys2Proof.Machine
end

section
/-! # Rules over all instructions -/

namespace Sys2Proof.Machine

section Decoding
variable {opc : Assignment} {ir a b : Byte} {i : Instr} {s t : State}

/-- What the machine's decoder reads: the instruction that the matched mnemonic makes of the operand bytes. -/
theorem decodeFetched_eq_ok : decodeFetched opc ir a b = .ok i ↔ ∃ m, lookupOpcode opc ir = some m ∧ assemble m a b = i := by
  unfold decodeFetched
  cases lookupOpcode opc ir <;> simp

theorem assemble_eq_hlt {m : Mnemonic} : assemble m a b = .hlt ↔ m = .hlt := by cases m <;> simp [assemble]

/-- A step that has an instruction to run is that instruction's handler (R111). -/
theorem stepWith_eq_exec (h : nextInstr opc s = .ok i) : stepWith opc s = exec i s := by
  rw [stepWith, h]

/-- A step that answers a next state started Running and ran the instruction whose bytes stand at `pc`. -/
theorem exec_of_stepWith_next (h : stepWith opc s = .next t) : s.run = .running ∧ ∃ m,
    lookupOpcode opc (s.mem.read s.pc) = some m ∧
    exec (assemble m (s.mem.read (s.pc + 1)) (s.mem.read (s.pc + 2))) s = .next t := by
  obtain ⟨i, hi, hexec⟩ := stepWith_next.mp h
  obtain ⟨hrun, -, hdec⟩ := nextInstr_eq_ok.mp hi
  obtain ⟨m, hm, rfl⟩ := decodeFetched_eq_ok.mp hdec
  exact ⟨hrun, m, hm, hexec⟩

/-- A stopped machine takes no step (R34, R110). -/
theorem stepWith_of_not_running (h : s.run ≠ .running) : stepWith opc s = .fault (.noStep s.run) := by
  rw [stepWith_fault]
  left
  cases hr : s.run with
  | running => exact absurd hr h
  | halted => simp [nextInstr, hr]
  | faulted c n => simp [nextInstr, hr]

end Decoding

/-! ## The program counter -/

/-- R27's table looks a target register up in the state after; it finds what the handler read. -/
theorem pcTable_nextState {i : Instr} {s : State} (h : faultingOperand i s = none) :
    pcTable i s (nextState i s) = some (nextPc i s) := by
  have hvalid := faultingOperand_eq_none.mp h
  have htarget : ∀ (a : Byte) (u : State), a.toNat < 8 → u.x[a.toNat]?.map BitVec.toNat = some (regValue u a).toNat :=
    fun a u ha => by simp [regValue, ha]
  cases i with
  | call a => exact htarget a (spDecrement s) (hvalid a (by simp [accessed, Instr.registerOperands]))
  | jmp a => exact htarget a s (hvalid a (by simp [accessed, Instr.registerOperands]))
  | jeq a =>
    cases he : s.e with
    | false => simp [pcTable, nextPc, he]
    | true => simpa [pcTable, nextPc, nextState, nextRegs, he] using htarget a s (hvalid a (by simp [accessed, he]))
  | jne a =>
    cases he : s.e with
    | false => simpa [pcTable, nextPc, nextState, nextRegs, he] using htarget a s (hvalid a (by simp [accessed, he]))
    | true => simp [pcTable, nextPc, he]
  | _ => rfl

theorem pcTable_of_exec {i : Instr} {s t : State} (h : exec i s = .next t) : pcTable i s t = some t.pc := by
  obtain ⟨hvalid, rfl⟩ := exec_next.mp h
  exact pcTable_nextState hvalid

/-- Settles O27. -/
theorem programCounterFollowsTheTable : Obligations.ProgramCounterFollowsTheTable := by
  refine ⟨fun i s t => pcTable_of_exec, fun opc s t h => ?_⟩
  obtain ⟨-, m, hm, hexec⟩ := exec_of_stepWith_next h
  exact ⟨m, hm, pcTable_of_exec hexec⟩

/-! ## The run state -/

/-- An instruction halts a running machine exactly when it is HLT (R34). -/
theorem nextRun_eq_halted_iff {i : Instr} {s : State} (hrun : s.run = .running) : nextRun i s = .halted ↔ i = .hlt := by
  refine ⟨fun h => ?_, fun h => by rw [h]; rfl⟩
  by_contra hi
  simp [nextRun_of_ne_hlt hi, hrun] at h

/-- Settles O31. -/
theorem runStateTransitions : Obligations.RunStateTransitions := by
  refine ⟨fun opc s t h => ?_, fun opc s c n o h => ?_, fun opc s h => ?_, fun image t h => ?_⟩
  · obtain ⟨hrun, m, hm, hexec⟩ := exec_of_stepWith_next h
    obtain ⟨-, rfl⟩ := exec_next.mp hexec
    refine ⟨hrun, (nextRun_cases _ hrun).imp_right And.right, ?_⟩
    rw [hm, Option.some.injEq]
    exact (nextRun_eq_halted_iff hrun).trans assemble_eq_hlt
  · refine ⟨?_, by rw [h]; rfl⟩
    by_contra hrun
    simp [stepWith_of_not_running hrun] at h
  · rw [stepWith_of_not_running h]
    exact ⟨rfl, rfl⟩
  · obtain ⟨-, -, -, -, hrun, -⟩ := bootImage_ok h
    exact hrun

/-! ## Completion -/

/-- Both checks of well-formedness say that every register operand names a register (R23). -/
theorem wellFormed_iff {i : Instr} : WellFormed i ↔ ∀ r ∈ i.registerOperands, r.toNat < 8 := by
  cases i <;> simp [WellFormed, wellFormed, operandAValid, operandBValid, Instr.registerOperands]

/-- Settles O32. -/
theorem wellFormedInstructionsComplete : Obligations.WellFormedInstructionsComplete := by
  intro i s
  refine ⟨fun hi => ⟨nextState i s, exec_next.mpr ⟨?_, rfl⟩⟩, fun f h => ?_⟩
  · exact faultingOperand_eq_none.mpr fun r hr => wellFormed_iff.mp hi r (accessed_subset i s hr)
  · obtain ⟨r, hr, rfl⟩ := exec_fault.mp h
    obtain ⟨hmem, hge⟩ := mem_accessed_of_faultingOperand hr
    exact ⟨r, accessed_subset i s hmem, hge, rfl⟩

/-! ## The flag -/

/-- The flag is read by JEQ and JNE alone: for another instruction, changing it changes at most the flag (R31). -/
theorem nextState_setFlag {i : Instr} (hjeq : ∀ a, i ≠ .jeq a) (hjne : ∀ a, i ≠ .jne a) (s : State) (v : Bool) :
    nextState i { s with e := v } = { nextState i s with e := nextFlag i { s with e := v } } := by
  cases i with
  | jeq a => exact absurd rfl (hjeq a)
  | jne a => exact absurd rfl (hjne a)
  | _ => rfl

theorem faultingOperand_setFlag {i : Instr} (hjeq : ∀ a, i ≠ .jeq a) (hjne : ∀ a, i ≠ .jne a) (s : State) (v : Bool) :
    faultingOperand i { s with e := v } = faultingOperand i s := by
  cases i with
  | jeq a => exact absurd rfl (hjeq a)
  | jne a => exact absurd rfl (hjne a)
  | _ => rfl

/-- Settles O28. -/
theorem equalIsWrittenOnlyByCmpReadOnlyByJeqJne : Obligations.EqualIsWrittenOnlyByCmpReadOnlyByJeqJne := by
  refine ⟨fun a b s t h => ?_, fun i s t hi h => ?_, fun i s v hjeq hjne => ⟨fun t h => ?_, fun f h => ?_⟩⟩
  · obtain ⟨hvalid, rfl⟩ := exec_next.mp h
    obtain ⟨ha, hb⟩ : a.toNat < 8 ∧ b.toNat < 8 := by
      simpa [accessed, Instr.registerOperands] using faultingOperand_eq_none.mp hvalid
    simp [nextState, nextFlag, equalOf, regValue_of_lt, ha, hb]
  · obtain ⟨-, rfl⟩ := exec_next.mp h
    exact nextFlag_of_ne_cmp hi
  · obtain ⟨hvalid, rfl⟩ := exec_next.mp h
    refine ⟨_, exec_next.mpr ⟨by rw [faultingOperand_setFlag hjeq hjne, hvalid], nextState_setFlag hjeq hjne s v⟩,
      rfl, rfl, rfl, rfl, rfl, ?_⟩
    rintro ⟨a, b, rfl⟩
    rfl
  · obtain ⟨r, hr, rfl⟩ := exec_fault.mp h
    exact exec_fault.mpr ⟨r, by rw [faultingOperand_setFlag hjeq hjne, hr], rfl⟩

/-! ## The output -/

/-- Nothing reads the output: changing it changes only what precedes the byte appended (R36). -/
theorem nextState_setOut (i : Instr) (s : State) (o : List Byte) :
    nextState i { s with out := o } = { nextState i s with out := o ++ (emitted i s).toList } := by
  have hout : nextOut i { s with out := o } = o ++ (emitted i s).toList := by
    rw [nextOut_eq_append]
    cases i <;> rfl
  have hrest : nextState i { s with out := o } = { nextState i s with out := nextOut i { s with out := o } } := by
    cases i <;> rfl
  rw [hrest, hout]

/-- Settles O29. -/
theorem outputIsAppendedOnlyByPrn : Obligations.OutputIsAppendedOnlyByPrn := by
  refine ⟨fun a s t h => ?_, fun i s t hi h => ?_, fun i s t o h => ?_, fun i s c n o o' h => ?_, rfl⟩
  · obtain ⟨hvalid, rfl⟩ := exec_next.mp h
    have ha : a.toNat < 8 := by simpa [accessed, Instr.registerOperands] using faultingOperand_eq_none.mp hvalid
    exact ⟨regValue s a, by simp [regValue, ha], rfl⟩
  · obtain ⟨-, rfl⟩ := exec_next.mp h
    exact nextOut_of_ne_prn hi
  · obtain ⟨hvalid, rfl⟩ := exec_next.mp h
    exact ⟨_, nextOut_eq_append i s, exec_next.mpr ⟨hvalid, nextState_setOut i s o⟩⟩
  · obtain ⟨r, hr, hf⟩ := exec_fault.mp h
    obtain ⟨rfl, rfl, rfl⟩ : FaultCause.outOfBounds = c ∧ r.toNat = n ∧ s.out = o := by simpa using hf
    exact ⟨rfl, exec_fault.mpr ⟨r, hr, rfl⟩⟩

/-! ## The registers -/

/-- The state with another value in one register. -/
def State.setReg (s : State) (r : Nat) (h : r < 8) (v : Byte) : State := { s with x := s.x.set r v }

section Registers
variable {i : Instr} {s : State} {r : Nat}

@[simp] theorem setReg_pc (h : r < 8) (v : Byte) : (s.setReg r h v).pc = s.pc := rfl
@[simp] theorem setReg_e (h : r < 8) (v : Byte) : (s.setReg r h v).e = s.e := rfl

theorem regValue_setReg {a : Byte} (h : r < 8) (v : Byte) (ha : r ≠ a.toNat) :
    regValue (s.setReg r h v) a = regValue s a := by
  simp [regValue, State.setReg, ha]

theorem sp_setReg (h : r < 8) (v : Byte) (h7 : r ≠ 7) : (s.setReg r h v).sp = s.sp := by
  simp [State.setReg, h7]

theorem pushAddr_setReg (h : r < 8) (v : Byte) (h7 : r ≠ 7) : pushAddr (s.setReg r h v) = pushAddr s :=
  congrArg (fun w : Byte => (w - 1#8).toNat) (sp_setReg h v h7)

theorem popAddr_setReg (h : r < 8) (v : Byte) (h7 : r ≠ 7) : popAddr (s.setReg r h v) = popAddr s :=
  congrArg BitVec.toNat (sp_setReg h v h7)

/-- A change of a register other than 7 commutes with the decrement of the stack pointer. -/
theorem spDecrement_setReg (h : r < 8) (v : Byte) (h7 : r ≠ 7) :
    spDecrement (s.setReg r h v) = (spDecrement s).setReg r h v := by
  rw [spDecrement, sp_setReg h v h7]
  simp [State.setReg, spDecrement, Vector.set_comm _ _ h7]

theorem faultingOperand_setReg (i : Instr) (s : State) (h : r < 8) (v : Byte) :
    faultingOperand i (s.setReg r h v) = faultingOperand i s := by
  cases i <;> rfl

section Unread
variable (h : r < 8) (v : Byte) (hr : r ∉ registersRead i s)
include hr

theorem nextPc_setReg : nextPc i (s.setReg r h v) = nextPc i s := by
  cases i with
  | call a =>
    obtain ⟨h7, ha⟩ : r ≠ 7 ∧ r ≠ a.toNat := by simpa [registersRead] using hr
    rw [nextPc, spDecrement_setReg h v h7, regValue_setReg h v ha, nextPc]
  | ret => rw [nextPc, popAddr_setReg h v (by simpa [registersRead] using hr)]; rfl
  | jmp a => rw [nextPc, regValue_setReg h v (by simpa [registersRead] using hr), nextPc]
  | jeq a =>
    cases he : s.e with
    | false => simp [nextPc, he]
    | true => simp [nextPc, he, regValue_setReg h v (show r ≠ a.toNat by simpa [registersRead, he] using hr)]
  | jne a =>
    cases he : s.e with
    | false => simp [nextPc, he, regValue_setReg h v (show r ≠ a.toNat by simpa [registersRead, he] using hr)]
    | true => simp [nextPc, he]
  | _ => rfl

theorem nextFlag_setReg : nextFlag i (s.setReg r h v) = nextFlag i s := by
  cases i with
  | cmp a b =>
    obtain ⟨ha, hb⟩ : r ≠ a.toNat ∧ r ≠ b.toNat := by simpa [registersRead] using hr
    rw [nextFlag, regValue_setReg h v ha, regValue_setReg h v hb, nextFlag]
  | _ => rfl

theorem nextMem_setReg : nextMem i (s.setReg r h v) = nextMem i s := by
  cases i with
  | push a =>
    obtain ⟨h7, ha⟩ : r ≠ 7 ∧ r ≠ a.toNat := by simpa [registersRead] using hr
    rw [nextMem, pushAddr_setReg h v h7, storedByte, spDecrement_setReg h v h7, regValue_setReg h v ha]
    rfl
  | call a =>
    obtain ⟨h7, -⟩ : r ≠ 7 ∧ r ≠ a.toNat := by simpa [registersRead] using hr
    rw [nextMem, pushAddr_setReg h v h7]
    rfl
  | _ => rfl

theorem nextOut_setReg : nextOut i (s.setReg r h v) = nextOut i s := by
  cases i with
  | prn a =>
    rw [nextOut, emitted, regValue_setReg h v (by simpa [registersRead] using hr)]
    rfl
  | _ => rfl

/-- A register an instruction writes takes the same value whatever the registers it does not read hold. -/
theorem nextRegs_setReg_of_written {q : Nat} (hq : q < 8) (hw : q ∈ registersWritten i) :
    (nextRegs i (s.setReg r h v))[q] = (nextRegs i s)[q] := by
  cases i with
  | ldi a imm =>
    obtain rfl : q = a.toNat := by simpa [registersWritten] using hw
    simp [nextRegs]
  | add a b | mul a b =>
    obtain rfl : q = a.toNat := by simpa [registersWritten] using hw
    obtain ⟨ha, hb⟩ : r ≠ a.toNat ∧ r ≠ b.toNat := by simpa [registersRead] using hr
    simp [nextRegs, regValue_setReg h v ha, regValue_setReg h v hb]
  | push a | call a =>
    obtain rfl : q = 7 := by simpa [registersWritten] using hw
    obtain ⟨h7, -⟩ : r ≠ 7 ∧ r ≠ a.toNat := by simpa [registersRead] using hr
    simp only [nextRegs, spDecrement_setReg h v h7]
    exact Vector.getElem_set_ne h hq h7
  | ret =>
    obtain rfl : q = 7 := by simpa [registersWritten] using hw
    have h7 : r ≠ 7 := by simpa [registersRead] using hr
    simp [nextRegs, State.setReg, h7]
  | pop a =>
    have h7 : r ≠ 7 := by simpa [registersRead] using hr
    have hq' : q = a.toNat ∨ q = 7 := by simpa [registersWritten] using hw
    simp only [nextRegs, popAddr_setReg h v h7, spIncrement_x, State.sp_eq]
    rcases hq' with rfl | rfl <;> simp [State.setReg, Vector.getElem_set, Vector.getElem_setIfInBounds, h7]
  | hlt | prn _ | cmp _ _ | jmp _ | jeq _ | jne _ => exact absurd hw List.not_mem_nil

/-- What a register holds after an instruction when an unread register was changed before it: the change itself where
the instruction does not write it, and otherwise what it would have held. -/
theorem nextRegs_setReg {q : Nat} (hq : q < 8) :
    (nextRegs i (s.setReg r h v))[q] = if q = r ∧ r ∉ registersWritten i then v else (nextRegs i s)[q] := by
  by_cases hw : q ∈ registersWritten i
  · rw [nextRegs_setReg_of_written h v hr hq hw, if_neg]
    rintro ⟨rfl, hnot⟩
    exact hnot hw
  · rw [nextRegs_of_not_written hq hw, nextRegs_of_not_written hq hw]
    by_cases hqr : q = r
    · subst hqr
      simp [State.setReg, hw]
    · simp [State.setReg, hqr, Ne.symm hqr]

end Unread
end Registers

/-- Settles O30. -/
theorem registersAreReadAndWrittenAsTabled : Obligations.RegistersAreReadAndWrittenAsTabled := by
  refine ⟨fun i s t ht r h hr => ?_, fun i s r h v hr => ⟨fun t ht => ?_, fun f hf => ?_⟩⟩
  · obtain ⟨-, rfl⟩ := exec_next.mp ht
    exact nextRegs_of_not_written h hr
  · obtain ⟨hvalid, rfl⟩ := exec_next.mp ht
    refine ⟨nextState i (s.setReg r h v), exec_next.mpr ⟨(faultingOperand_setReg i s h v).trans hvalid, rfl⟩,
      fun q hq hqr => ?_, ?_, nextPc_setReg h v hr, nextFlag_setReg h v hr, ?_, nextMem_setReg h v hr,
      nextOut_setReg h v hr⟩
    · exact (nextRegs_setReg h v hr hq).trans (if_neg fun ⟨hq, _⟩ => hqr hq)
    · refine (nextRegs_setReg h v hr h).trans ?_
      by_cases hw : r ∈ registersWritten i <;> simp [hw, nextState]
    · cases i <;> rfl
  · obtain ⟨a, ha, rfl⟩ := exec_fault.mp hf
    exact exec_fault.mpr ⟨a, (faultingOperand_setReg i s h v).trans ha, rfl⟩

end Sys2Proof.Machine
end

section
/-! # A step depends on its own cells only -/

namespace Sys2Proof.Machine

/-- The state with another byte in one cell. -/
def State.setCell (s : State) (addr : Nat) (v : Byte) : State := { s with mem := s.mem.write addr v }

section Cells
variable {i : Instr} {s : State} {addr : Nat}

/-! ## The fetch -/

/-- The operand bytes a mnemonic does not have are dead data (R83, R112). -/
theorem assemble_congr {m : Mnemonic} {a b a' b' : Byte} (ha : 1 ≤ operandCount m → a' = a)
    (hb : 2 ≤ operandCount m → b' = b) : assemble m a' b' = assemble m a b := by
  cases m <;> simp_all [assemble, operandCount]

theorem length_assemble (m : Mnemonic) (a b : Byte) : (assemble m a b).length = operandCount m + 1 := by
  cases m <;> rfl

/-- The instruction's own bytes are among the cells it uses. -/
theorem pc_add_ne_of_not_mem_cellsUsed (h : addr ∉ cellsUsed i s) {k : Nat} (hk : k < i.length) : s.pc + k ≠ addr := by
  rintro rfl
  exact h (List.mem_append_left _ (List.mem_map.mpr ⟨k, List.mem_range.mpr hk, rfl⟩))

/-- A cell outside the instruction's bytes decides nothing about which instruction runs (R112). -/
theorem nextInstr_setCell {opc : Assignment} (v : Byte) (hi : nextInstr opc s = .ok i) (h : addr ∉ cellsUsed i s) :
    nextInstr opc (s.setCell addr v) = .ok i := by
  obtain ⟨hrun, hpc, hdec⟩ := nextInstr_eq_ok.mp hi
  obtain ⟨m, hm, rfl⟩ := decodeFetched_eq_ok.mp hdec
  have hread : ∀ k, k ≤ operandCount m → (s.setCell addr v).mem.read (s.pc + k) = s.mem.read (s.pc + k) := fun k hk =>
    Memory.read_write_ne v (pc_add_ne_of_not_mem_cellsUsed h (by rw [length_assemble]; omega)) s.mem
  exact nextInstr_eq_ok.mpr ⟨hrun, hpc, decodeFetched_eq_ok.mpr
    ⟨m, (congrArg (lookupOpcode opc) (hread 0 (Nat.zero_le _))).trans hm, assemble_congr (hread 1) (hread 2)⟩⟩

/-! ## The handler -/

theorem faultingOperand_setCell (i : Instr) (s : State) (addr : Nat) (v : Byte) :
    faultingOperand i (s.setCell addr v) = faultingOperand i s := by
  cases i <;> rfl

/-- The byte a pop reads is the same where the instruction uses the cell at `SP` and the changed cell is none it
uses. -/
theorem read_popAddr_setCell (v : Byte) (hsp : popAddr s ∈ cellsUsed i s) (h : addr ∉ cellsUsed i s) :
    (s.setCell addr v).mem.read (popAddr (s.setCell addr v)) = s.mem.read (popAddr s) :=
  Memory.read_write_ne v (ne_of_mem_of_not_mem hsp h) s.mem

/-- POP alone takes a register from memory, from the cell at `SP`. -/
theorem nextRegs_setCell (v : Byte) (h : addr ∉ cellsUsed i s) : nextRegs i (s.setCell addr v) = nextRegs i s := by
  cases i with
  | pop a =>
    rw [nextRegs, read_popAddr_setCell v (List.mem_append_right _ (List.mem_singleton_self _)) h]
    rfl
  | _ => rfl

/-- RET alone takes `pc` from memory, from the cell at `SP`. -/
theorem nextPc_setCell (v : Byte) (h : addr ∉ cellsUsed i s) : nextPc i (s.setCell addr v) = nextPc i s := by
  cases i with
  | ret =>
    rw [nextPc, read_popAddr_setCell v (List.mem_append_right _ (List.mem_singleton_self _)) h]
    rfl
  | _ => rfl

/-- The flag, the run state and the output come from no cell. -/
theorem flag_run_out_setCell (i : Instr) (s : State) (addr : Nat) (v : Byte) :
    nextFlag i (s.setCell addr v) = nextFlag i s ∧ nextRun i (s.setCell addr v) = nextRun i s ∧
      nextOut i (s.setCell addr v) = nextOut i s := by
  cases i <;> exact ⟨rfl, rfl, rfl⟩

theorem storedByte_setCell (i : Instr) (s : State) (addr : Nat) (v : Byte) :
    storedByte i (s.setCell addr v) = storedByte i s := by
  cases i <;> rfl

/-- The cells stored to, from the byte stored (R39). -/
theorem cellsStored_eq (i : Instr) (s : State) : cellsStored i s = (storedByte i s).elim [] fun _ => [pushAddr s] := by
  cases i <;> rfl

/-- What a cell holds after an instruction when one cell was changed before it: the change itself where the
instruction does not store to it, and otherwise what it would have held. -/
theorem read_nextMem_setCell (hm : s.mem.wf = true) (haddr : addr < 256) (v : Byte) (k : Nat) :
    (nextMem i (s.setCell addr v)).read k =
      if k = addr ∧ addr ∉ cellsStored i s then v else (nextMem i s).read k := by
  rw [nextMem, storedByte_setCell, cellsStored_eq, nextMem]
  cases storedByte i s with
  | none => simp [State.setCell, Memory.read_write hm]
  | some w =>
    have hm' : (s.setCell addr v).mem.wf = true := Memory.wf_write v haddr hm
    have hread : (s.setCell addr v).mem.read k = if k = addr then v else s.mem.read k := Memory.read_write hm addr k v
    have hpush : pushAddr (s.setCell addr v) = pushAddr s := rfl
    simp only [Option.elim_some, Memory.read_write hm', Memory.read_write hm, hpush, hread, List.mem_singleton]
    by_cases hk : k = addr
    · subst hk
      by_cases hp : k = pushAddr s <;> simp [hp]
    · simp [hk]

end Cells

/-- Settles O38. -/
theorem stepDependsOnlyOnItsCells : Obligations.StepDependsOnlyOnItsCells := by
  intro opc s i addr v hm haddr hi hcell
  have hstep : stepWith opc { s with mem := s.mem.write addr v } = exec i (s.setCell addr v) :=
    stepWith_eq_exec (nextInstr_setCell v hi hcell)
  rw [stepWith_eq_exec hi, hstep]
  refine ⟨fun t ht => ?_, fun f hf => ?_⟩
  · obtain ⟨hvalid, rfl⟩ := exec_next.mp ht
    obtain ⟨hflag, hrun, hout⟩ := flag_run_out_setCell i s addr v
    refine ⟨nextState i (s.setCell addr v), exec_next.mpr ⟨(faultingOperand_setCell i s addr v).trans hvalid, rfl⟩,
      nextRegs_setCell v hcell, nextPc_setCell v hcell, hflag, hrun, hout, fun k hk => ?_, ?_⟩
    · exact (read_nextMem_setCell hm haddr v k).trans (if_neg fun ⟨h, _⟩ => hk h)
    · refine (read_nextMem_setCell hm haddr v addr).trans ?_
      by_cases hs : addr ∈ cellsStored i s <;> simp [hs, nextState]
  · obtain ⟨r, hr, rfl⟩ := exec_fault.mp hf
    exact exec_fault.mpr ⟨r, (faultingOperand_setCell i s addr v).trans hr, rfl⟩

end Sys2Proof.Machine
end

section
/-! # Memory: checked accesses, and code written by a store -/

namespace Sys2Proof.Machine

/-- Settles O5: by the cases of the bounds check. -/
theorem memoryIsCheckedAndHoldsTheLastWrite : Obligations.MemoryIsCheckedAndHoldsTheLastWrite := by
  intro s addr v hm
  refine ⟨fun haddr => ⟨_, memWrite_ok haddr, ?_, fun k hne hk => ⟨_, memRead_ok hk, ?_⟩, rfl, rfl, rfl, rfl, rfl⟩,
    fun haddr => ⟨memWrite_error haddr, memRead_error haddr⟩⟩
  · rw [memRead_ok haddr, Memory.read_write_eq addr v hm]
  · rw [memRead_ok hk, Memory.read_write_ne v hne]

/-! ## A stored byte that is fetched next (R63) -/

section Stored
variable {opc : Assignment} {i : Instr} {m : Mnemonic} {ir v : Byte} {s : State}

theorem mem_allMnemonics (m : Mnemonic) : m ∈ allMnemonics := by cases m <;> decide

/-- A mnemonic the lookup finds has the byte that was looked up (R90). -/
theorem opc_of_lookupOpcode (h : lookupOpcode opc ir = some m) : opc m = ir := by
  unfold lookupOpcode at h
  simpa using List.find?_some h

/-- Where the opcode bytes are distinct, the lookup of one finds its own mnemonic (R89, R90). -/
theorem lookupOpcode_self (hopc : Admissible opc) (m : Mnemonic) : lookupOpcode opc (opc m) = some m := by
  have hfound : (lookupOpcode opc (opc m)).isSome :=
    List.find?_isSome.mpr ⟨m, mem_allMnemonics m, beq_self_eq_true _⟩
  obtain ⟨n, hn⟩ := Option.isSome_iff_exists.mp hfound
  rw [hn, hopc.distinct n m (opc_of_lookupOpcode hn)]

/-- A running machine with an opcode byte at `pc` runs that opcode's instruction on the bytes after it (R111, R114). -/
theorem stepWith_of_read_pc (hopc : Admissible opc) (hrun : s.run = .running) (hpc : s.pc ≤ 253)
    (hread : s.mem.read s.pc = opc m) :
    stepWith opc s = exec (assemble m (s.mem.read (s.pc + 1)) (s.mem.read (s.pc + 2))) s :=
  stepWith_eq_exec (nextInstr_eq_ok.mpr
    ⟨hrun, hpc, decodeFetched_eq_ok.mpr ⟨m, by rw [hread, lookupOpcode_self hopc], rfl⟩⟩)

/-- After an instruction that stores a byte, the cell it stored to holds that byte (R53). -/
theorem read_pushAddr_nextState (hm : s.mem.wf = true) (h : storedByte i s = some v) :
    (nextState i s).mem.read (pushAddr s) = v := by
  rw [nextState, nextMem, h]
  exact Memory.read_write_eq _ v hm

/-- An instruction that stores a byte leaves the run state alone. -/
theorem nextRun_of_storedByte (h : storedByte i s = some v) : nextRun i s = s.run :=
  nextRun_of_ne_hlt (by rintro rfl; cases h)

/-- What PUSH stores is what its register holds after it: the register is read after the decrement (R171, R173). -/
theorem storedByte_push {a : Byte} (h : (nextState (.push a) s).x[a.toNat]? = some v) :
    storedByte (.push a) s = some v := by
  have hread : (spDecrement s).x[a.toNat]? = some v := h
  rw [storedByte, regValue, hread, Option.getD_some]

/-- What CALL stores is its return address, where that is a byte (R181). -/
theorem storedByte_call {a : Byte} (h : v.toNat = s.pc + 2) : storedByte (.call a) s = some v := by
  rw [storedByte, returnAddr, ← h, BitVec.ofNat_toNat, BitVec.setWidth_eq]

/-- The step after an instruction that stored an opcode byte where `pc` now stands runs that opcode. -/
theorem stepWith_of_storedByte {t : State} (hopc : Admissible opc) (hm : s.mem.wf = true) (hrun : s.run = .running)
    (hto : t.pc = pushAddr s) (hpc : t.pc ≤ 253) (hexec : exec i s = .next t) (h : storedByte i s = some (opc m)) :
    stepWith opc t = exec (assemble m (t.mem.read (t.pc + 1)) (t.mem.read (t.pc + 2))) t := by
  obtain ⟨-, rfl⟩ := exec_next.mp hexec
  refine stepWith_of_read_pc hopc ((nextRun_of_storedByte h).trans hrun) hpc ?_
  rw [hto, read_pushAddr_nextState hm h]

end Stored

/-- Settles O39: both forms store the opcode byte, and the fetch is from the cell stored to. -/
theorem storedByteIsTheNextOpcode : Obligations.StoredByteIsTheNextOpcode := by
  intro opc m a s t hopc hm hrun _ hto hpc hstored
  obtain ⟨hexec, hreg⟩ | ⟨hexec, hret⟩ := hstored
  · obtain ⟨-, ht⟩ := exec_next.mp hexec
    exact stepWith_of_storedByte hopc hm hrun hto hpc hexec (storedByte_push (ht ▸ hreg))
  · exact stepWith_of_storedByte hopc hm hrun hto hpc hexec (storedByte_call hret)

end Sys2Proof.Machine
end

section
/-! # The decoder and the encoder -/

namespace Sys2Proof.Machine

section Encoding
variable {opc : Assignment} {ir a b : Byte} {m : Mnemonic} {i : Instr} {bytes rest tail : List Byte} {s : State}

/-! ## The lookup -/

/-- The lookup fails exactly on a byte that no mnemonic has (R91). -/
theorem lookupOpcode_eq_none : lookupOpcode opc ir = none ↔ ∀ m, ir ≠ opc m := by
  simp [lookupOpcode, List.find?_eq_none, mem_allMnemonics, eq_comm (a := ir)]

/-- Where the opcode bytes are distinct, the lookup inverts the assignment; R81 has no part in it (R89, R90). -/
theorem lookupOpcode_eq_some (hinj : ∀ m n, opc m = opc n → m = n) : lookupOpcode opc ir = some m ↔ opc m = ir := by
  refine ⟨opc_of_lookupOpcode, ?_⟩
  rintro rfl
  cases hn : lookupOpcode opc (opc m) with
  | none => exact absurd rfl (lookupOpcode_eq_none.mp hn m)
  | some n => rw [hinj n m (opc_of_lookupOpcode hn)]

/-! ## The instruction as a mnemonic and operand bytes -/

@[simp] theorem mnemonic_assemble (m : Mnemonic) (a b : Byte) : (assemble m a b).mnemonic = m := by cases m <;> rfl

@[simp] theorem operands_assemble (m : Mnemonic) (a b : Byte) :
    (assemble m a b).operands = [a, b].take (operandCount m) := by
  cases m <;> rfl

theorem length_operands (i : Instr) : i.operands.length = operandCount i.mnemonic := by cases i <;> rfl

/-- Two bytes that begin with an instruction's operands make the instruction again. -/
theorem assemble_of_operands_append (h : [a, b] = i.operands ++ tail) : assemble i.mnemonic a b = i := by
  cases i with
  | hlt | ret => rfl
  | prn _ | push _ | pop _ | call _ | jmp _ | jeq _ | jne _ =>
    obtain ⟨rfl, -⟩ := List.cons.inj h
    rfl
  | ldi _ _ | add _ _ | mul _ _ | cmp _ _ =>
    obtain ⟨rfl, hb⟩ := List.cons.inj h
    obtain ⟨rfl, -⟩ := List.cons.inj hb
    rfl

/-! ## The machine's decoder -/

theorem decodeFetched_opc (hinj : ∀ m n, opc m = opc n → m = n) (m : Mnemonic) (a b : Byte) :
    decodeFetched opc (opc m) a b = .ok (assemble m a b) :=
  decodeFetched_eq_ok.mpr ⟨m, (lookupOpcode_eq_some hinj).mpr rfl, rfl⟩

theorem decodeFetched_unknown (h : ∀ m, ir ≠ opc m) : decodeFetched opc ir a b = .error (.unknownOpcode ir) := by
  rw [decodeFetched, lookupOpcode_eq_none.mpr h]

/-! ## The static decoder -/

/-- What the static decoder reads: an opcode byte of the instruction's mnemonic, then its operand bytes (R80, R94). -/
theorem decodeBytes_eq_ok : decodeBytes opc bytes = .ok (i, rest) ↔
    ∃ ir, lookupOpcode opc ir = some i.mnemonic ∧ bytes = ir :: (i.operands ++ rest) := by
  constructor
  · intro h
    unfold decodeBytes at h
    split at h
    · cases h
    next ir after =>
      split at h
      · cases h
      next m hm =>
        split at h <;> cases h
        all_goals
          next hcount => exact ⟨ir, by rw [mnemonic_assemble, hm], by simp [hcount]⟩
  · rintro ⟨ir, hir, rfl⟩
    rw [decodeBytes, hir]
    cases i <;> rfl

/-- A running machine stops at a byte that is no opcode (R91, R114). -/
theorem stepWith_unknownOpcode (hrun : s.run = .running) (hpc : s.pc ≤ 253) (h : ∀ m, s.mem.read s.pc ≠ opc m) :
    stepWith opc s = .fault (.raised .unknownOpcode (s.mem.read s.pc).toNat s.out) := by
  have hnext : nextInstr opc s = .error (.raised .unknownOpcode (s.mem.read s.pc).toNat s.out) := by
    rw [nextInstr, hrun]
    simp only [fetch_ok hpc, bind_ok, dispatch, decodeFetched_unknown h, raise]
  rw [stepWith, hnext]

/-! ## How many bytes are opcodes -/

/-- The known bytes, in rising order, are the bytes of the thirteen mnemonics in another order. -/
theorem perm_filter_known (hopc : Admissible opc) :
    ((List.range 256).filter fun n => ¬ lookupOpcode opc (BitVec.ofNat 8 n) = none).Perm
      (allMnemonics.map fun m => (opc m).toNat) := by
  have hinj : Function.Injective fun m => (opc m).toNat := fun m n h => hopc.distinct m n (BitVec.eq_of_toNat_eq h)
  have hnodup : allMnemonics.Nodup := by decide
  refine (List.perm_ext_iff_of_nodup (List.nodup_range.filter _) (hnodup.map hinj)).mpr fun n => ?_
  simp only [List.mem_filter, List.mem_range, List.mem_map, mem_allMnemonics, true_and, decide_eq_true_eq,
    lookupOpcode_eq_none, not_forall, not_not]
  constructor
  · rintro ⟨hn, m, hm⟩
    exact ⟨m, by rw [← hm, BitVec.toNat_ofNat, Nat.mod_eq_of_lt hn]⟩
  · rintro ⟨m, rfl⟩
    exact ⟨(opc m).isLt, m, by rw [BitVec.ofNat_toNat, BitVec.setWidth_eq]⟩

/-! ## The fields of an opcode byte -/

/-- The four fields of R98 are the whole byte. -/
theorem toNat_eq_of_opcodeFields {c d : Nat} {alu setsPc : Bool} (h : opcodeFields ir = (c, alu, setsPc, d)) :
    ir.toNat = c * 64 + alu.toNat * 32 + setsPc.toNat * 16 + d := by
  obtain ⟨rfl, rfl, rfl, rfl⟩ : ir.toNat / 64 = c ∧ ir.getLsbD 5 = alu ∧ ir.getLsbD 4 = setsPc ∧ ir.toNat % 16 = d := by
    simpa [opcodeFields] using h
  simp only [BitVec.getLsbD, Nat.toNat_testBit]
  omega

end Encoding

theorem operandCount_le_two (m : Mnemonic) : operandCount m ≤ 2 := by cases m <;> decide

theorem aluBit_default (m : Mnemonic) : (defaultOpc m).getLsbD 5 = aluBit m := by cases m <;> rfl

theorem setsPcBit_default (m : Mnemonic) : (defaultOpc m).getLsbD 4 = setsPcBit m := by cases m <;> rfl

/-- Settles O43: both decoders find the mnemonic by its byte, and the operand bytes are those that follow. -/
theorem decodeOfEncodeIsTheInstruction : Obligations.DecodeOfEncodeIsTheInstruction := by
  intro opc i rest hopc
  refine ⟨decodeBytes_eq_ok.mpr ⟨_, lookupOpcode_self hopc _, rfl⟩, ?_⟩
  rintro ir a b ⟨tail, htail⟩
  obtain ⟨rfl, hoperands⟩ := List.cons.inj htail
  rw [decodeFetched_opc hopc.distinct, assemble_of_operands_append hoperands]

/-- Settles O44. -/
theorem encodeOfDecodeIsTheBytes : Obligations.EncodeOfDecodeIsTheBytes := by
  intro opc bytes rest i h
  obtain ⟨ir, hir, rfl⟩ := decodeBytes_eq_ok.mp h
  rw [encodeWith, opc_of_lookupOpcode hir, List.cons_append]

/-- Settles O45. -/
theorem theWholeOpcodeByteIsMatched : Obligations.TheWholeOpcodeByteIsMatched :=
  fun _ _ a b hopc => ⟨fun m hm => hm ▸ decodeFetched_opc hopc.distinct m a b, decodeFetched_unknown⟩

/-- Settles O35: thirteen of the 256 bytes are known, and the rest fault. -/
theorem unknownOpcodesAreFatal : Obligations.UnknownOpcodesAreFatal := by
  intro opc hopc
  refine ⟨?_, fun s hrun hpc h => ?_⟩
  · have hknown := (perm_filter_known hopc).length_eq
    have hall := List.length_eq_length_filter_add (l := List.range 256)
      fun n => decide (lookupOpcode opc (BitVec.ofNat 8 n) = none)
    simp only [← decide_not, List.length_range, hknown, List.length_map] at hall
    have hthirteen : allMnemonics.length = 13 := rfl
    omega
  · have hstep := stepWith_unknownOpcode hrun hpc h
    exact ⟨hstep, 1, by rw [hstep]; rfl, Nat.one_ne_zero⟩

/-- Settles O46: the operand bytes are as many as the table of formats says, and it says two at most. -/
theorem highOpcodeBitsCountTheOperands : Obligations.HighOpcodeBitsCountTheOperands := by
  intro opc i ir rest hopc h
  obtain ⟨rfl, rfl⟩ := List.cons.inj h
  have hcount := operandCount_le_two i.mnemonic
  rw [hopc.highBits, length_operands, Instr.length]
  exact ⟨rfl, rfl, by omega⟩

/-- Settles O54: the lookup needs distinct bytes only, and the operand bytes stand in other cells. -/
theorem noFieldOfTheOpcodeByteIsDecoded : Obligations.NoFieldOfTheOpcodeByteIsDecoded := by
  intro opc opc' s i hinj hm hi
  obtain ⟨hrun, hpc, hdec⟩ := nextInstr_eq_ok.mp hi
  obtain ⟨m, -, rfl⟩ := decodeFetched_eq_ok.mp hdec
  have hnext : nextInstr opc' (s.setCell s.pc (opc' m)) =
      .ok (assemble m (s.mem.read (s.pc + 1)) (s.mem.read (s.pc + 2))) := by
    refine nextInstr_eq_ok.mpr ⟨hrun, hpc, ?_⟩
    simp only [State.setCell, Memory.read_write hm]
    simpa using decodeFetched_opc hinj m _ _
  rw [mnemonic_assemble]
  exact ⟨hnext, stepWith_eq_exec hnext⟩

/-- Settles O47: the thirteen bytes, written out, have no duplicate. -/
theorem defaultAssignmentIsAdmissible : Obligations.DefaultAssignmentIsAdmissible := by
  have hnodup : (allMnemonics.map defaultOpc).Nodup := by decide
  exact ⟨fun m n => List.inj_on_of_nodup_map hnodup (mem_allMnemonics m) (mem_allMnemonics n),
    fun m => by cases m <;> rfl⟩

/-- Settles O48: five of the bytes are opcodes, and 0 is none. -/
theorem sampleWordsDecode : Obligations.SampleWordsDecode := by
  have hopc (m : Mnemonic) (a b : Byte) : decodeFetched defaultOpc (defaultOpc m) a b = .ok (assemble m a b) :=
    decodeFetched_opc defaultAssignmentIsAdmissible.distinct m a b
  exact ⟨hopc .hlt _ _, hopc .ldi _ _, hopc .add _ _, hopc .push _ _, hopc .call _ _,
    decodeFetched_unknown fun m => by cases m <;> decide⟩

/-- Settles O53: `AA` is R81, and the fields make up the byte. -/
theorem defaultOpcodesFollowThePublishedLayout : Obligations.DefaultOpcodesFollowThePublishedLayout := by
  intro m
  have hfields : opcodeFields (defaultOpc m) = (operandCount m, aluBit m, setsPcBit m, (defaultOpc m).toNat % 16) := by
    rw [opcodeFields, defaultAssignmentIsAdmissible.highBits, aluBit_default, setsPcBit_default]
  exact ⟨_, hfields, Nat.mod_lt _ (by decide), toNat_eq_of_opcodeFields hfields⟩

end Sys2Proof.Machine
end

section
/-! # The execution cycle -/

namespace Sys2Proof.Machine

section Cycle
variable {opc : Assignment} {s : State} {f : Fault}

/-- The read that leaves memory is operand B's, operand A's or the opcode's own; its address is 256 each time (R113). -/
theorem fetch_error (hlow : 254 ≤ s.pc) (hhigh : s.pc ≤ 256) : fetch s = .error (.raised .outOfBounds 256 s.out) := by
  obtain hpc | hpc | hpc : s.pc = 254 ∨ s.pc = 255 ∨ s.pc = 256 := by omega
  all_goals simp [fetch, hpc, memRead_ok, memRead_error]

/-- A running machine whose fetch fails stops with the fetch's fault: nothing is dispatched (R113, R114). -/
theorem stepWith_of_fetch_error (hrun : s.run = .running) (h : fetch s = .error f) : stepWith opc s = .fault f := by
  refine stepWith_fault.mpr (.inl ?_)
  rw [nextInstr, hrun]
  simp only [h, bind_error]

end Cycle

/-- Settles O34. -/
theorem fetchFaultsAtTheTopOfMemory : Obligations.FetchFaultsAtTheTopOfMemory :=
  fun _ _ hrun hlow hhigh => stepWith_of_fetch_error hrun (fetch_error hlow hhigh)

/-- Settles O33: an instruction that three cells decode to is the one the step dispatches. -/
theorem stepRunsTheDecodedInstruction : Obligations.StepRunsTheDecodedInstruction :=
  ⟨fun _ _ _ hrun hpc hdec => stepWith_eq_exec (nextInstr_eq_ok.mpr ⟨hrun, hpc, hdec⟩), fun _ => rfl⟩

end Sys2Proof.Machine
end

section
/-! # System and output: PRN and HLT -/

namespace Sys2Proof.Machine

/-- Settles O9: by the two cases of PRN's one register check. -/
theorem prnOutputsTheRegister : Obligations.PrnOutputsTheRegister :=
  fun _ _ _ => ⟨rfl, fun ha => execPrn_next.mpr ⟨ha, rfl⟩, fun ha => execPrn_fault.mpr ⟨ha, rfl⟩⟩

/-- Settles O8: HLT leaves a state that is not Running, and such a state takes no step. -/
theorem hltHaltsAndAdvances : Obligations.HltHaltsAndAdvances := by
  intro opc s
  have hstopped : (pcAdvance 1 (halt s)).run ≠ .running := by simp
  exact ⟨rfl, pcAdvance 1 (halt s), execHlt_next.mpr rfl, rfl, stepWith_of_not_running hstopped⟩

end Sys2Proof.Machine
end

section
/-! # Data move: LDI -/

namespace Sys2Proof.Machine

/-- Settles O10: by the two cases of LDI's one register check, which is on operand A. -/
theorem ldiLoadsTheImmediate : Obligations.LdiLoadsTheImmediate :=
  fun _ _ _ _ => ⟨rfl, fun ha => execLdi_next.mpr ⟨ha, rfl⟩, fun ha => execLdi_fault.mpr ⟨ha, rfl⟩⟩

end Sys2Proof.Machine
end

section
/-! # The ALU: ADD, MUL and CMP

The low byte of the exact sum or product (R151) is the sum or product of bytes, so the library's facts on `BitVec`
give both its readings, unsigned and two's-complement. The three instructions share their operand checks. -/

namespace Sys2Proof.Machine

section Alu
variable {i : Instr} {a b va vb v1 v2 : Byte} {s t : State}

/-! ## The values -/

theorem addMod_eq_add (va vb : Byte) : addMod va vb = va + vb :=
  BitVec.eq_of_toNat_eq (by simp [addMod])

theorem mulMod_eq_mul (va vb : Byte) : mulMod va vb = va * vb :=
  BitVec.eq_of_toNat_eq (by simp [mulMod])

theorem equalOf_eq_true : equalOf va vb = true ↔ va = vb := beq_iff_eq

/-- Adding `(256 - k) mod 256` subtracts `k` where nothing is borrowed (R152). -/
theorem toNat_add_of_negated {k : Nat} (hk : k ≤ va.toNat) (hb : vb.toNat = (256 - k) % 256) :
    (va + vb).toNat = va.toNat - k := by
  have hva := va.isLt
  rw [BitVec.toNat_add, hb]
  omega

/-! ## The instructions -/

/-- An instruction whose two operands name registers completes, in the table's next state. -/
theorem exec_of_accessed_two (h : accessed i s = [a, b]) (ha : a.toNat < 8) (hb : b.toNat < 8) :
    exec i s = .next (nextState i s) :=
  exec_next.mpr ⟨by simp [faultingOperand_eq_none, h, ha, hb], rfl⟩

theorem exec_add_next (ha : a.toNat < 8) (hb : b.toNat < 8) : exec (.add a b) s = .next (nextState (.add a b) s) :=
  exec_of_accessed_two rfl ha hb

theorem exec_mul_next (ha : a.toNat < 8) (hb : b.toNat < 8) : exec (.mul a b) s = .next (nextState (.mul a b) s) :=
  exec_of_accessed_two rfl ha hb

theorem nextState_add_dest (ha : a.toNat < 8) (hb : b.toNat < 8) :
    (nextState (.add a b) s).x[a.toNat] = s.x[a.toNat] + s.x[b.toNat] := by
  simp [nextState, nextRegs, regValue_of_lt ha, regValue_of_lt hb, addMod_eq_add]

theorem nextState_mul_dest (ha : a.toNat < 8) (hb : b.toNat < 8) :
    (nextState (.mul a b) s).x[a.toNat] = s.x[a.toNat] * s.x[b.toNat] := by
  simp [nextState, nextRegs, regValue_of_lt ha, regValue_of_lt hb, mulMod_eq_mul]

/-- CMP leaves Equal set exactly when the two registers are equal. -/
theorem nextState_cmp_e (ha : a.toNat < 8) (hb : b.toNat < 8) :
    (nextState (.cmp a b) s).e = true ↔ s.x[a.toNat] = s.x[b.toNat] := by
  simp [nextState, nextFlag, regValue_of_lt ha, regValue_of_lt hb, equalOf_eq_true]

/-- An instruction that writes one register leaves the others. -/
theorem nextState_x_of_ne_dest {d r : Nat} (hd : registersWritten i = [d]) (h : r < 8) (hr : r ≠ d) :
    (nextState i s).x[r] = s.x[r] :=
  nextRegs_of_not_written h (by simpa [hd] using hr)

/-! ## After two loads: the sequence of S1 and S2 -/

/-- The state after LDI R0,v1; LDI R1,v2. -/
def afterLoads (v1 v2 : Byte) (s : State) : State := nextState (.ldi 1 v2) (nextState (.ldi 0 v1) s)

@[simp] theorem afterLoads_x_zero (v1 v2 : Byte) (s : State) : (afterLoads v1 v2 s).x[0] = v1 := by
  simp [afterLoads, nextState, nextRegs]

@[simp] theorem afterLoads_x_one (v1 v2 : Byte) (s : State) : (afterLoads v1 v2 s).x[1] = v2 := by
  simp [afterLoads, nextState, nextRegs]

/-- The sequence ends where its last instruction takes the state after the two loads. -/
theorem execAll_loads (h : exec i (afterLoads v1 v2 s) = .next t) :
    execAll [.ldi 0 v1, .ldi 1 v2, i] s = .next t := by
  have h0 : exec (.ldi 0 v1) s = .next (nextState (.ldi 0 v1) s) := exec_next.mpr ⟨rfl, rfl⟩
  have h1 : exec (.ldi 1 v2) (nextState (.ldi 0 v1) s) = .next (afterLoads v1 v2 s) := exec_next.mpr ⟨rfl, rfl⟩
  simp only [execAll, h0, h1, h]

theorem nextState_add_afterLoads (v1 v2 : Byte) (s : State) :
    (nextState (.add 0 1) (afterLoads v1 v2 s)).x[0] = v1 + v2 :=
  (nextState_add_dest (a := 0) (b := 1) (by decide) (by decide)).trans (by simp)

theorem nextState_mul_afterLoads (v1 v2 : Byte) (s : State) :
    (nextState (.mul 0 1) (afterLoads v1 v2 s)).x[0] = v1 * v2 :=
  (nextState_mul_dest (a := 0) (b := 1) (by decide) (by decide)).trans (by simp)

end Alu

/-! ## The obligations -/

/-- Settles O11: ADD leaves the sum of bytes in register A and no other register changes; operand A is checked first. -/
theorem addIsTheSumModulo256 : Obligations.AddIsTheSumModulo256 := by
  refine ⟨fun opc a b s => ⟨rfl, fun ha hb => ⟨_, exec_add_next ha hb, ?_, fun r => nextState_x_of_ne_dest rfl,
      rfl, rfl, rfl, rfl, rfl⟩,
    fun ha => (execAlu_fault .add).mpr (.inl ⟨ha, rfl⟩), fun ha hb => (execAlu_fault .add).mpr (.inr ⟨ha, hb, rfl⟩)⟩,
    fun v1 v2 s => ⟨_, execAll_loads (exec_add_next (by decide) (by decide)), ?_⟩⟩
  · rw [nextState_add_dest ha hb, BitVec.toNat_add]
  · rw [nextState_add_afterLoads, BitVec.toNat_add]

/-- Settles O12: as ADD, with the product of bytes. -/
theorem mulIsTheProductModulo256 : Obligations.MulIsTheProductModulo256 := by
  refine ⟨fun opc a b s => ⟨rfl, fun ha hb => ⟨_, exec_mul_next ha hb, ?_, fun r => nextState_x_of_ne_dest rfl,
      rfl, rfl, rfl, rfl, rfl⟩,
    fun ha => (execAlu_fault .mul).mpr (.inl ⟨ha, rfl⟩), fun ha hb => (execAlu_fault .mul).mpr (.inr ⟨ha, hb, rfl⟩)⟩,
    fun v1 v2 s => ⟨_, execAll_loads (exec_mul_next (by decide) (by decide)), ?_⟩⟩
  · rw [nextState_mul_dest ha hb, BitVec.toNat_mul]
  · rw [nextState_mul_afterLoads, BitVec.toNat_mul]

/-- Settles O13: by the cases of the two operand checks, A's first. -/
theorem cmpSetsEqualExactlyOnEquality : Obligations.CmpSetsEqualExactlyOnEquality :=
  fun _ _ _ _ => ⟨rfl,
    fun ha hb => ⟨_, exec_of_accessed_two rfl ha hb, nextState_cmp_e ha hb, rfl, rfl, rfl, rfl, rfl⟩,
    fun ha => (execAlu_fault .cmp).mpr (.inl ⟨ha, rfl⟩),
    fun ha hb => (execAlu_fault .cmp).mpr (.inr ⟨ha, hb, rfl⟩)⟩

/-- Settles O22: the sum and product of bytes are those of the two's-complement readings, reduced (R152). -/
theorem arithmeticAgreesWithTheSignedReading : Obligations.ArithmeticAgreesWithTheSignedReading := by
  refine ⟨fun a b s ha hb => ⟨⟨_, exec_add_next ha hb, ?_⟩, ⟨_, exec_mul_next ha hb, ?_⟩⟩,
    fun a b s k ha hb hk hneg => ⟨_, exec_add_next ha hb, ?_⟩⟩
  · rw [nextState_add_dest ha hb, BitVec.toInt_add]
  · rw [nextState_mul_dest ha hb, BitVec.toInt_mul]
  · rw [nextState_add_dest ha hb, toNat_add_of_negated hk hneg]

end Sys2Proof.Machine
end

section
/-! # The stack: PUSH, POP and register 7

PUSH and CALL read their register after the decrement of `SP`, POP writes its register before the increment (D7). The
lemmas say this of the state after the instruction, for register 7 and every other register at once. -/

namespace Sys2Proof.Machine

section Stack
variable {i : Instr} {a : Byte} {s : State} {k : Nat}

/-- An instruction whose one operand names a register completes, in the table's next state. -/
theorem exec_of_accessed_one (h : accessed i s = [a]) (ha : a.toNat < 8) : exec i s = .next (nextState i s) :=
  exec_next.mpr ⟨by simp [faultingOperand_eq_none, h, ha], rfl⟩

theorem exec_push_next (ha : a.toNat < 8) : exec (.push a) s = .next (nextState (.push a) s) :=
  exec_of_accessed_one rfl ha

theorem exec_pop_next (ha : a.toNat < 8) : exec (.pop a) s = .next (nextState (.pop a) s) :=
  exec_of_accessed_one rfl ha

theorem exec_call_next (ha : a.toNat < 8) : exec (.call a) s = .next (nextState (.call a) s) :=
  exec_of_accessed_one rfl ha

/-! ## Memory -/

/-- An instruction changes no cell but the one at `pushAddr` (R39). -/
theorem read_nextState_of_ne (h : k ≠ pushAddr s) : (nextState i s).mem.read k = s.mem.read k := by
  simp only [nextState, nextMem]
  cases storedByte i s with
  | none => rfl
  | some v => exact Memory.read_write_ne v h s.mem

/-- The decremented stack pointer addresses another cell than the stack pointer, at the wrap too (D6). -/
theorem toNat_ne_pushAddr (s : State) : (s.x[7]).toNat ≠ pushAddr s := by
  have hsp := (s.x[7]).isLt
  rw [pushAddr_eq, toNat_dec]
  omega

/-! ## Register 7 -/

/-- After PUSH the stack pointer is where the byte was stored (R171). -/
@[simp] theorem toNat_sp_nextState_push (a : Byte) (s : State) :
    ((nextState (.push a) s).x[7]).toNat = pushAddr s := by
  simp [nextState, nextRegs, pushAddr_eq]

/-- After PUSH the cell at the new `SP` holds register A as it now stands (R171, R173). -/
theorem read_pushAddr_push (hm : s.mem.wf = true) (ha : a.toNat < 8) :
    (nextState (.push a) s).mem.read (pushAddr s) = (nextState (.push a) s).x[a.toNat] :=
  read_pushAddr_nextState hm (storedByte_push (by simp [ha]))

/-- The registers after POP: the loaded byte goes to register A, then register 7 as it stands goes up (R172, R174). -/
theorem nextState_pop_x (ha : a.toNat < 8) :
    (nextState (.pop a) s).x = (s.x.set a.toNat (s.mem.read (s.x[7]).toNat) ha).set 7
      ((s.x.set a.toNat (s.mem.read (s.x[7]).toNat) ha)[7] + 1#8) := by
  simp [nextState, nextRegs, popAddr_eq, set_eq_setIfInBounds ha]

end Stack

/-! ## The obligations -/

/-- Settles O14: the register is read after the decrement, so it is what the state after PUSH holds. -/
theorem pushDecrementsThenStores : Obligations.PushDecrementsThenStores := by
  intro opc a s
  refine ⟨rfl, fun ha hm => ⟨_, exec_push_next ha, ?_, fun r => nextState_x_of_ne_dest rfl, ?_, fun k hk => ?_,
    rfl, rfl, rfl, rfl⟩, fun ha => execPush_fault.mpr ⟨ha, rfl⟩⟩
  · rw [toNat_sp_nextState_push, pushAddr_eq, toNat_dec]
  · rw [toNat_sp_nextState_push, read_pushAddr_push hm ha]
  · exact read_nextState_of_ne (by simpa using hk)

/-- Settles O15: POP R7 apart, since there the increment is of the loaded byte. -/
theorem popLoadsThenIncrements : Obligations.PopLoadsThenIncrements := by
  intro opc a s
  refine ⟨rfl, fun ha => ⟨_, exec_pop_next ha, fun h7 => ⟨?_, ?_⟩, fun h7 => ?_,
    fun r hr h7 hra => nextRegs_of_not_written hr (by simp [registersWritten, h7, hra]), rfl, rfl, rfl, rfl, rfl⟩,
    fun ha => execPop_fault.mpr ⟨ha, rfl⟩⟩
  · simp [nextState_pop_x ha, Ne.symm h7]
  · simp [nextState_pop_x ha, h7]
  · simp [nextState_pop_x ha, h7]

/-- Settles O21: PUSH and CALL see register 7 after the decrement, POP increments what it loaded. -/
theorem registerSevenFollowsTheEffectOrder : Obligations.RegisterSevenFollowsTheEffectOrder := by
  intro s hm
  have h7 : (7 : Byte).toNat < 8 := by decide
  refine ⟨⟨_, exec_push_next h7, rfl, ?_, read_nextState_of_ne (toNat_ne_pushAddr s)⟩,
    ⟨_, exec_pop_next h7, ?_⟩, ⟨_, exec_call_next h7, rfl, ?_⟩⟩
  · exact (read_pushAddr_push hm h7).trans (by simp [nextState, nextRegs])
  · rw [nextState_pop_x h7]
    simp
  · simp [nextState, nextPc, regValue]

/-- Settles O25. -/
theorem frameOfStackStores : Obligations.FrameOfStackStores := by
  intro i a s t hi h
  obtain ⟨-, rfl⟩ := exec_next.mp h
  have hwritten : registersWritten i = [7] := by obtain rfl | rfl := hi <;> rfl
  refine ⟨fun addr haddr k hk => read_nextState_of_ne (haddr ▸ hk), fun r => nextState_x_of_ne_dest hwritten, ?_⟩
  obtain rfl | rfl := hi <;> exact ⟨rfl, rfl, rfl⟩

/-- Settles O26: neither form stores a byte. -/
theorem frameOfStackLoads : Obligations.FrameOfStackLoads := by
  intro i s t hi h
  obtain ⟨-, rfl⟩ := exec_next.mp h
  obtain ⟨a, rfl⟩ | rfl := hi
  · refine ⟨fun _ => rfl, fun r hr h7 hpop => nextRegs_of_not_written hr ?_, rfl, rfl, rfl⟩
    have hra : r ≠ a.toNat := by
      rintro rfl
      exact hpop (by simp)
    simp [registersWritten, h7, hra]
  · exact ⟨fun _ => rfl, fun r hr h7 _ => nextState_x_of_ne_dest rfl hr h7, rfl, rfl, rfl⟩

end Sys2Proof.Machine
end

section
/-! # Sequences of PUSH and POP: registers pushed and popped in reverse order come back (R175)

The induction is on the list of registers, from the outside in: the first PUSH and the last POP enclose a shorter
block, which finds and leaves `SP` one lower and does not reach the cell the first PUSH stored to, as long as there
are no more pushes than cells. So the last POP loads the very value its register holds, and what it does is to
increment `SP`. For register 7 that value is the decremented pointer itself, so it needs no case of its own. -/

namespace Sys2Proof.Machine

/-- A sequence whose first part completes goes on with the rest from there. -/
theorem execAll_append {is js : List Instr} {s t : State} (h : execAll is s = .next t) :
    execAll (is ++ js) s = execAll js t := by
  induction is generalizing s with
  | nil =>
    obtain rfl : s = t := by simpa [execAll] using h
    rfl
  | cons i is ih =>
    cases hi : exec i s with
    | next u => simpa [execAll, hi] using ih (by simpa [execAll, hi] using h)
    | fault f => simp [execAll, hi] at h
    | refused q => simp [execAll, hi] at h

/-- The address `j + 1` cells below `SP`, modulo 256: where the push after `j` others stores (R170, D6). -/
def belowSp (s : State) (j : Nat) : Nat := ((s.x[7]).toNat + 255 - j) % 256

/-- The registers pushed one after another, then popped in reverse order. -/
def pushPop (rs : List Byte) : List Instr := rs.map .push ++ rs.reverse.map .pop

/-- What a block of pushes and the pops that match them leave: everything but `pc` and the cells pushed to, and in the
first of these cells the first register, read after the decrement. -/
structure Restored (rs : List Byte) (s t : State) : Prop where
  regs : t.x = s.x
  flag : t.e = s.e
  runState : t.run = s.run
  output : t.out = s.out
  counter : t.pc = s.pc + 4 * rs.length
  otherCells : ∀ k, (∀ j < rs.length, k ≠ belowSp s j) → t.mem.read k = s.mem.read k
  topCell : ∀ r, rs.head? = some r → (nextState (.push r) s).x[r.toNat]? = some (t.mem.read (belowSp s 0))

section Block
variable {r : Byte} {rs : List Byte} {s t : State}

theorem pushAddr_eq_belowSp (s : State) : pushAddr s = belowSp s 0 := toNat_dec _

theorem belowSp_nextState_push {j : Nat} (hj : j < 255) : belowSp (nextState (.push r) s) j = belowSp s (j + 1) := by
  simp only [belowSp, toNat_sp_nextState_push, pushAddr_eq, toNat_dec]
  omega

/-- The pushes after the first, up to 255 of them, do not come round to the first one's cell. -/
theorem belowSp_zero_ne {j : Nat} (hj : j < 255) : belowSp s 0 ≠ belowSp s (j + 1) := by
  simp only [belowSp]
  omega

/-- POP of a register that already holds the byte at `SP` only increments `SP`. -/
theorem nextState_pop_x_of_loaded (hr : r.toNat < 8) (h : t.mem.read (t.x[7]).toNat = t.x[r.toNat]) :
    (nextState (.pop r) t).x = t.x.set 7 (t.x[7] + 1#8) := by
  simp only [nextState_pop_x hr, h, Vector.set_getElem_self]

/-- The first PUSH's register is undone by the increment of `SP`. -/
theorem set_seven_nextState_push (r : Byte) (s : State) :
    (nextState (.push r) s).x.set 7 ((nextState (.push r) s).x[7] + 1#8) = s.x := by
  simp [nextState, nextRegs]

/-- A block enclosed by a PUSH and the matching POP is a block again. -/
theorem Restored.enclose (hm : s.mem.wf = true) (hr : r.toNat < 8) (hlen : rs.length ≤ 255)
    (h : Restored rs (nextState (.push r) s) t) : Restored (r :: rs) s (nextState (.pop r) t) := by
  have hbelow : ∀ j < rs.length, belowSp (nextState (.push r) s) j = belowSp s (j + 1) :=
    fun j hj => belowSp_nextState_push (hj.trans_le hlen)
  have hcell : t.mem.read (belowSp s 0) = (nextState (.push r) s).x[r.toNat] := by
    rw [h.otherCells _ fun j hj => hbelow j hj ▸ belowSp_zero_ne (hj.trans_le hlen), ← pushAddr_eq_belowSp]
    exact read_pushAddr_push hm hr
  have hx : (nextState (.pop r) t).x = s.x := by
    have hloaded : t.mem.read (t.x[7]).toNat = t.x[r.toNat] := by
      simp only [h.regs, hcell, toNat_sp_nextState_push, pushAddr_eq_belowSp]
    rw [nextState_pop_x_of_loaded hr hloaded]
    simp only [h.regs, set_seven_nextState_push]
  have hpc : t.pc + 2 = s.pc + 4 * (rs.length + 1) := by
    have hpush : (nextState (.push r) s).pc = s.pc + 2 := rfl
    rw [h.counter, hpush]
    omega
  refine ⟨hx, h.flag, h.runState, h.output, hpc, fun k hk => ?_, ?_⟩
  · have hne : k ≠ pushAddr s := pushAddr_eq_belowSp s ▸ hk 0 rs.length.succ_pos
    refine (h.otherCells k fun j hj => ?_).trans (read_nextState_of_ne hne)
    exact hbelow j hj ▸ hk (j + 1) (Nat.succ_lt_succ hj)
  · rintro _ ⟨⟩
    exact (Vector.getElem?_eq_getElem hr).trans (congrArg some hcell.symm)

/-- Up to 256 valid registers, pushed and popped in reverse order, are restored. -/
theorem exists_execAll_pushPop (hm : s.mem.wf = true) (hlen : rs.length ≤ 256) (hrs : ∀ r ∈ rs, r.toNat < 8) :
    ∃ t, execAll (pushPop rs) s = .next t ∧ Restored rs s t := by
  induction rs generalizing s with
  | nil => exact ⟨s, rfl, rfl, rfl, rfl, rfl, rfl, fun _ _ => rfl, by simp⟩
  | cons r rs ih =>
    obtain ⟨hr, hrs⟩ := List.forall_mem_cons.mp hrs
    have hlen : rs.length ≤ 255 := Nat.le_of_succ_le_succ hlen
    obtain ⟨t, hexec, ht⟩ := ih (s := nextState (.push r) s) (wf_nextMem (.push r) hm) (by omega) hrs
    have hsplit : pushPop (r :: rs) = .push r :: (pushPop rs ++ [.pop r]) := by simp [pushPop]
    refine ⟨nextState (.pop r) t, ?_, ht.enclose hm hr hlen⟩
    simp [hsplit, execAll, exec_push_next hr, execAll_append hexec, exec_pop_next hr]

end Block

/-- Settles O41: the cell below `SP` is the first cell pushed to. -/
theorem pushedRegistersComeBackInReverseOrder : Obligations.PushedRegistersComeBackInReverseOrder := by
  intro rs s hm hlen hrs
  obtain ⟨t, hexec, ht⟩ := exists_execAll_pushPop hm hlen hrs
  refine ⟨t, hexec, ht.regs, ht.flag, ht.runState, ht.output, ht.counter, ht.otherCells, ?_⟩
  rintro r hr rfl h7
  have htop := ht.topCell r rfl
  rw [Vector.getElem?_eq_getElem hr, Option.some.injEq, nextState_x_of_ne_dest rfl hr h7] at htop
  exact htop.symm

end Sys2Proof.Machine
end

section
/-! # Control transfer: CALL and RET, the jumps, and a jump to itself -/

namespace Sys2Proof.Machine

section Transfer
variable {a : Byte} {s : State}

/-! ## CALL and RET -/

/-- After CALL the stack pointer is where the return address was stored (R181). -/
@[simp] theorem toNat_sp_nextState_call (a : Byte) (s : State) :
    ((nextState (.call a) s).x[7]).toNat = pushAddr s := by
  simp [nextState, nextRegs, pushAddr_eq]

/-- Wherever an instruction can be fetched, its return address is a byte. -/
theorem toNat_returnAddr (hpc : s.pc ≤ 253) : (returnAddr s).toNat = s.pc + 2 := by
  rw [returnAddr, BitVec.toNat_ofNat]
  exact Nat.mod_eq_of_lt (by omega)

theorem read_pushAddr_call (a : Byte) (hm : s.mem.wf = true) :
    (nextState (.call a) s).mem.read (pushAddr s) = returnAddr s :=
  read_pushAddr_nextState hm rfl

/-- CALL jumps to register A as it stands after the decrement (R181, D7). -/
theorem nextState_call_pc (ha : a.toNat < 8) :
    (nextState (.call a) s).pc = ((nextState (.call a) s).x[a.toNat]).toNat :=
  congrArg BitVec.toNat (regValue_of_lt ha)

theorem exec_ret (s : State) : exec .ret s = .next (nextState .ret s) := exec_next.mpr ⟨rfl, rfl⟩

theorem nextState_ret_pc (s : State) : (nextState .ret s).pc = (s.mem.read (s.x[7]).toNat).toNat := rfl

theorem nextState_ret_sp (s : State) : (nextState .ret s).x[7] = s.x[7] + 1#8 := by
  simp [nextState, nextRegs]

/-- The increment of a RET undoes the decrement of a CALL, at the wrap too (D6). -/
theorem sp_nextState_call_add_one (a : Byte) (s : State) : (nextState (.call a) s).x[7] + 1#8 = s.x[7] := by
  simp [nextState, nextRegs]

/-! ## Jumps -/

theorem exec_jmp_next (ha : a.toNat < 8) : exec (.jmp a) s = .next { s with pc := (s.x[a.toNat]).toNat } :=
  execJmp_next.mpr ⟨ha, rfl⟩

/-- A conditional jump that is taken goes where its register says. -/
theorem finish_branchIf_taken {c : Bool} (hc : c = true) (ha : a.toNat < 8) :
    finish (branchIf c a s) = .next { s with pc := (s.x[a.toNat]).toNat } :=
  (branchIf_next c).mpr (.inl ⟨hc, ha, rfl⟩)

/-- A conditional jump that is not taken goes to the instruction after it, whatever its operand (D7). -/
theorem finish_branchIf_untaken {c : Bool} (hc : c = false) :
    finish (branchIf c a s) = .next { s with pc := s.pc + 2 } :=
  (branchIf_next c).mpr (.inr ⟨hc, rfl⟩)

/-- A conditional jump that is taken through no register faults. -/
theorem finish_branchIf_noRegister {c : Bool} (hc : c = true) (ha : 8 ≤ a.toNat) :
    finish (branchIf c a s) = .fault (noRegister a s) :=
  (branchIf_fault c).mpr ⟨hc, ha, rfl⟩

theorem exec_jeq (a : Byte) (s : State) : exec (.jeq a) s = finish (branchIf s.e a s) := rfl

theorem exec_jne (a : Byte) (s : State) : exec (.jne a) s = finish (branchIf (!s.e) a s) := rfl

/-! ## A state that steps to itself -/

theorem run_of_step_self {M : Host.Core} {u : M.State} (h : M.step u = .next u) (n : Nat) : M.run n u = .next u := by
  induction n with
  | zero => rfl
  | succ n ih => simpa only [Host.Core.run, h] using ih

theorem safe_of_step_self (h : step s = .next s) : Safe s := by
  intro n
  induction n with
  | zero => trivial
  | succ n ih => exact .inr ⟨s, h, ih⟩

/-- A JMP through a register that holds its own address leaves the state as it is (R183). -/
theorem step_jmp_self (ha : a.toNat < 8) (hrun : s.run = .running) (hpc : s.pc ≤ 253)
    (hop : s.mem.read s.pc = defaultOpc .jmp) (harg : s.mem.read (s.pc + 1) = a)
    (hself : (s.x[a.toNat]).toNat = s.pc) : step s = .next s :=
  calc step s
    _ = exec (.jmp (s.mem.read (s.pc + 1))) s := stepWith_of_read_pc defaultAssignmentIsAdmissible hrun hpc hop
    _ = exec (.jmp a) s := by rw [harg]
    _ = .next { s with pc := (s.x[a.toNat]).toNat } := exec_jmp_next ha
    _ = .next s := by rw [hself]

end Transfer

/-! ## The obligations -/

/-- Settles O16: register A is read after the decrement, so the target is what the state after CALL holds. -/
theorem callPushesTheReturnAddress : Obligations.CallPushesTheReturnAddress := by
  intro opc a s
  refine ⟨rfl, fun ha hm hpc => ⟨_, exec_call_next ha, ?_, fun r => nextState_x_of_ne_dest rfl, ?_, fun k hk => ?_,
    nextState_call_pc ha, rfl, rfl, rfl⟩, fun ha => execCall_fault.mpr ⟨ha, rfl⟩⟩
  · rw [toNat_sp_nextState_call, pushAddr_eq, toNat_dec]
  · rw [toNat_sp_nextState_call, read_pushAddr_call a hm, toNat_returnAddr hpc]
  · exact read_nextState_of_ne (by simpa using hk)

/-- Settles O17: RET has no operand to fault on, and stores nothing. -/
theorem retPopsIntoThePc : Obligations.RetPopsIntoThePc :=
  fun _ s => ⟨rfl, _, exec_ret s, nextState_ret_pc s, by rw [nextState_ret_sp, toNat_inc],
    fun _ => nextState_x_of_ne_dest rfl, rfl, rfl, rfl, rfl⟩

/-- Settles O18: by the cases of the operand check. -/
theorem jmpTakesTheRegister : Obligations.JmpTakesTheRegister :=
  fun _ _ _ => ⟨rfl, exec_jmp_next, fun ha => execJmp_fault.mpr ⟨ha, rfl⟩⟩

/-- Settles O19: a conditional jump whose condition is the flag. -/
theorem jeqJumpsWhenEqualIsSet : Obligations.JeqJumpsWhenEqualIsSet := by
  intro opc a s
  rw [exec_jeq]
  exact ⟨rfl, fun ha he => finish_branchIf_taken he ha, finish_branchIf_untaken,
    fun ha he => finish_branchIf_noRegister he ha⟩

/-- Settles O20: a conditional jump whose condition is the flag's complement. -/
theorem jneJumpsWhenEqualIsClear : Obligations.JneJumpsWhenEqualIsClear := by
  intro opc a s
  rw [exec_jne]
  exact ⟨rfl, fun ha he => finish_branchIf_taken (by simp [he]) ha, fun he => finish_branchIf_untaken (by simp [he]),
    fun ha he => finish_branchIf_noRegister (by simp [he]) ha⟩

/-- Settles O40: the step is a fixed point, so every number of steps is. -/
theorem jumpToItselfNeverEnds : Obligations.JumpToItselfNeverEnds := by
  intro s a ha hrun hpc hop harg hself
  have hstep := step_jmp_self ha hrun hpc hop harg hself
  exact ⟨run_of_step_self (M := core) hstep, safe_of_step_self hstep⟩

/-- Settles O42: RET reads the cell the CALL stored to and increments the pointer the CALL decremented (R186). -/
theorem retResumesAfterTheCall : Obligations.RetResumesAfterTheCall := by
  intro a s t u hm hpc hcall hsp hcell
  obtain ⟨-, rfl⟩ := exec_next.mp hcall
  refine ⟨_, exec_ret u, ?_, ?_⟩
  · rw [nextState_ret_pc, hsp, hcell, toNat_sp_nextState_call, read_pushAddr_call a hm, toNat_returnAddr hpc]
  · rw [nextState_ret_sp, hsp, sp_nextState_call_add_one]

end Sys2Proof.Machine
end

section
/-! # Exceptions: the table of faults -/

namespace Sys2Proof.Machine

section Faults
variable {opc : Assignment} {m : Mnemonic} {s : State} {c : FaultCause} {n : Nat} {o : List Byte}

/-! ## What a running machine's step does -/

/-- A fetch at 254 or above, whatever `pc` is, fails at the first address it reads outside memory (R113). -/
theorem fetch_error_max (hlow : 254 ≤ s.pc) : fetch s = .error (.raised .outOfBounds (max s.pc 256) s.out) := by
  obtain hpc | hpc := le_total s.pc 256
  · rw [fetch_error hlow hpc, max_eq_right hpc]
  · simp [fetch, memRead_error hpc, max_eq_left hpc]

/-- The step of a running machine: its fetch fails, or its opcode byte is unknown, or it runs the instruction of the
mnemonic that the lookup found (R111, R113, R114). -/
theorem stepWith_cases (opc : Assignment) (hrun : s.run = .running) :
    (254 ≤ s.pc ∧ stepWith opc s = .fault (.raised .outOfBounds (max s.pc 256) s.out)) ∨
    (s.pc < 254 ∧ lookupOpcode opc (s.mem.read s.pc) = none ∧
      stepWith opc s = .fault (.raised .unknownOpcode (s.mem.read s.pc).toNat s.out)) ∨
    (s.pc < 254 ∧ ∃ m, lookupOpcode opc (s.mem.read s.pc) = some m ∧
      stepWith opc s = exec (assemble m (s.mem.read (s.pc + 1)) (s.mem.read (s.pc + 2))) s) := by
  obtain hpc | hpc := le_or_gt 254 s.pc
  · exact .inl ⟨hpc, stepWith_of_fetch_error hrun (fetch_error_max hpc)⟩
  have hfetch : s.pc ≤ 253 := Nat.le_of_lt_succ hpc
  cases hm : lookupOpcode opc (s.mem.read s.pc) with
  | none => exact .inr (.inl ⟨hpc, rfl, stepWith_unknownOpcode hrun hfetch (lookupOpcode_eq_none.mp hm)⟩)
  | some m =>
    have hdecoded := nextInstr_eq_ok.mpr ⟨hrun, hfetch, decodeFetched_eq_ok.mpr ⟨m, hm, rfl⟩⟩
    exact .inr (.inr ⟨hpc, m, rfl, stepWith_eq_exec hdecoded⟩)

/-- Every fault a step raises, from any state, carries the output of that state, and one of two causes (R203, R211). -/
theorem raised_of_stepWith_fault (h : stepWith opc s = .fault (.raised c n o)) :
    o = s.out ∧ (c = .outOfBounds ∨ c = .unknownOpcode) := by
  have hrun : s.run = .running := by
    by_contra hstopped
    simp [stepWith_of_not_running hstopped] at h
  obtain ⟨-, hstep⟩ | ⟨-, -, hstep⟩ | ⟨-, m, -, hstep⟩ := stepWith_cases opc hrun
  · cases hstep.symm.trans h
    exact ⟨rfl, .inl rfl⟩
  · cases hstep.symm.trans h
    exact ⟨rfl, .inr rfl⟩
  · obtain ⟨r, -, hr⟩ := exec_fault.mp (hstep.symm.trans h)
    cases hr
    exact ⟨rfl, .inl rfl⟩

/-! ## R204's table, row by row -/

theorem faultTable_of_le_pc (hpc : 254 ≤ s.pc) : faultTable opc s = some (.raised .outOfBounds 256 s.out) := if_pos hpc

theorem faultTable_of_lookup_none (hpc : s.pc < 254) (hm : lookupOpcode opc (s.mem.read s.pc) = none) :
    faultTable opc s = some (.raised .unknownOpcode (s.mem.read s.pc).toNat s.out) := by
  rw [faultTable, if_neg (Nat.not_le.mpr hpc), hm]

/-- The handlers' rows give the operand the instruction faults on, A before B, and none for an untaken jump
(R208, D7). -/
theorem handlerFaultTable_eq (m : Mnemonic) (a b : Byte) (s : State) :
    handlerFaultTable m a.toNat b.toNat s.e = (faultingOperand (assemble m a b) s).map BitVec.toNat := by
  cases m with
  | hlt | ret => rfl
  | ldi | prn | push | pop | call | jmp =>
    by_cases ha : 8 ≤ a.toNat <;>
      simp [handlerFaultTable, faultingOperand, accessed, assemble, Instr.registerOperands, ha]
  | add | mul | cmp =>
    by_cases ha : 8 ≤ a.toNat <;> by_cases hb : 8 ≤ b.toNat <;>
      simp [handlerFaultTable, faultingOperand, accessed, assemble, Instr.registerOperands, ha, hb]
  | jeq | jne =>
    cases he : s.e <;> by_cases ha : 8 ≤ a.toNat <;>
      simp [handlerFaultTable, faultingOperand, accessed, assemble, he, ha]

theorem faultTable_of_lookup_some (hpc : s.pc < 254) (hm : lookupOpcode opc (s.mem.read s.pc) = some m) :
    faultTable opc s =
      (faultingOperand (assemble m (s.mem.read (s.pc + 1)) (s.mem.read (s.pc + 2))) s).map (noRegister · s) := by
  rw [faultTable, if_neg (Nat.not_le.mpr hpc), hm]
  simp only [handlerFaultTable_eq, Option.map_map]
  rfl

/-! ## The step against the table -/

/-- A running machine's step stops with the fault the table gives, or completes where the table gives none: by the
row that `pc`, the opcode byte and the operands select (R204, R208). -/
theorem stepWith_eq_faultTable (opc : Assignment) (hrun : s.run = .running) (hpc : s.pc ≤ 256) :
    ∃ t, stepWith opc s = (faultTable opc s).elim (.next t) .fault := by
  obtain ⟨hlow, hstep⟩ | ⟨hfetch, hm, hstep⟩ | ⟨hfetch, m, hm, hstep⟩ := stepWith_cases opc hrun
  · exact ⟨s, by rw [hstep, faultTable_of_le_pc hlow, max_eq_right hpc, Option.elim_some]⟩
  · exact ⟨s, by rw [hstep, faultTable_of_lookup_none hfetch hm, Option.elim_some]⟩
  · refine ⟨nextState (assemble m (s.mem.read (s.pc + 1)) (s.mem.read (s.pc + 2))) s, ?_⟩
    rw [hstep, faultTable_of_lookup_some hfetch hm, exec_eq, outcome, Option.elim_map]
    rfl

end Faults

/-- Settles O36: the table gives a fault or none, and the step answers the one or completes. -/
theorem stepFaultsExactlyAsTabled : Obligations.StepFaultsExactlyAsTabled := by
  intro opc s hrun hpc
  obtain ⟨t, hstep⟩ := stepWith_eq_faultTable opc hrun hpc
  rw [hstep]
  cases htable : faultTable opc s with
  | none => simp
  | some f => simp

/-- Settles O37. -/
theorem faultsCarryTheOutputAndNeverUnsupported : Obligations.FaultsCarryTheOutputAndNeverUnsupported :=
  fun _ _ _ _ _ => raised_of_stepWith_fault

end Sys2Proof.Machine
end

section
/-! # Images over the limit, the empty image, and a word placed for the next step -/

namespace Sys2Proof.Machine

/-! ## The loader's limit -/

/-- A load that runs past the last cell fails at address 256: the bytes before it fit, and the next one does
not (R52, R247). -/
theorem loadBytes_error : ∀ {vs : List Byte} {addr : Nat} {s : State}, addr ≤ 256 → 256 < addr + vs.length →
    loadBytes vs addr s = .error (.raised .outOfBounds 256 s.out)
  | [], _, _, haddr, hlen => absurd hlen (not_lt.mpr haddr)
  | v :: vs, addr, s, haddr, hlen => by
    rw [List.length_cons] at hlen
    obtain rfl | hlt := haddr.eq_or_lt
    · exact loadBytes_cons_error le_rfl
    · rw [loadBytes_cons hlt]
      exact loadBytes_error hlt (by omega)

/-! ## Three bytes placed where the next step fetches -/

section Placing
variable {opc : Assignment} {ir a b : Byte} {i : Instr} {s : State}

/-- A placed instruction can be fetched: its three bytes end inside memory (R113). -/
theorem placeAt_le (s : State) : placeAt s ≤ 253 := by
  unfold placeAt
  split
  · assumption
  · exact Nat.zero_le _

theorem placeAt_of_le (hpc : s.pc ≤ 253) : placeAt s = s.pc := if_pos hpc

/-- The three cells of a placed instruction hold its three bytes: later writes leave the earlier bytes alone (R53). -/
theorem read_placeBytes (hm : s.mem.wf = true) (ir a b : Byte) :
    (placeBytes ir a b s).mem.read (placeAt s) = ir ∧ (placeBytes ir a b s).mem.read (placeAt s + 1) = a ∧
      (placeBytes ir a b s).mem.read (placeAt s + 2) = b := by
  have hat := placeAt_le s
  have hir := Memory.wf_write (addr := placeAt s) ir (by omega) hm
  have ha := Memory.wf_write (addr := placeAt s + 1) a (by omega) hir
  simp [Memory.read_write ha, Memory.read_write hir, Memory.read_write hm]

/-- Placed bytes are what the next step decodes (R111). -/
theorem nextInstr_placeBytes (hm : s.mem.wf = true) (h : decodeFetched opc ir a b = .ok i) :
    nextInstr opc (placeBytes ir a b s) = .ok i := by
  obtain ⟨hir, ha, hb⟩ := read_placeBytes hm ir a b
  refine nextInstr_eq_ok.mpr ⟨placeBytes_run .., placeAt_le s, ?_⟩
  rwa [placeBytes_pc, hir, ha, hb]

/-- What a table word decodes to is what the machine's decoder reads from the word's first three bytes. -/
theorem decodeTableWord_eq_some {nbits w : Nat} : decodeTableWord nbits w = some i ↔
    decodeFetched defaultOpc (wordByte nbits w 0) (wordByte nbits w 1) (wordByte nbits w 2) = .ok i := by
  unfold decodeTableWord
  cases decodeFetched defaultOpc (wordByte nbits w 0) (wordByte nbits w 1) (wordByte nbits w 2) <;>
    simp [Except.toOption]

end Placing

/-! ## The rules -/

/-- Settles O3: the loader stops at cell 256, and after the empty image the cell at `pc` reads 0, which is no opcode. -/
theorem loaderLimitsAndEmptyImage : Obligations.LoaderLimitsAndEmptyImage := by
  refine ⟨fun image hlen => loadBytes_error (Nat.zero_le _) (by simpa using hlen), fun opc t hopc h => ?_⟩
  obtain ⟨-, -, hpc, -, hrun, hout⟩ := bootImage_ok h
  have hread : t.mem.read t.pc = 0#8 := bootImage_read h t.pc
  have hstep := stepWith_unknownOpcode (opc := opc) hrun (hpc.le.trans (Nat.zero_le _))
    fun m hm => hopc m (hm.symm.trans hread)
  rwa [hread, hout] at hstep

/-- Settles O49: the placed bytes stand in the three cells the step fetches, and they decode as the word does. -/
theorem placedWordRunsNext : Obligations.PlacedWordRunsNext := by
  intro s nbits w i hm hi
  have hnext := nextInstr_placeBytes hm (decodeTableWord_eq_some.mp hi)
  exact ⟨stepWith_eq_exec hnext, rfl, rfl, rfl, fun _ hpc => placeAt_of_le hpc⟩

end Sys2Proof.Machine
end
